-- ==== Sys2Proof/Config.lean ====
section
/-! DEFINITION. What is fixed for the life of a core: the interpreter's figures (R9), each one definition that every
use names, the compositor's configuration record (R10, R11), the values the model names where the spec gives none
(logs 1, 2, 3) and the one free value (log 4). -/

namespace Sys2Proof

namespace Config

/-- `NREGS` (R9): general registers. -/
@[simp] abbrev nregs : Nat := 16

/-- `XLEN` (R9, R20): bits of a general register. -/
@[simp] abbrev xlen : Nat := 8

/-- `FLAG_REG` (R9, R22): the index of the carry register. -/
abbrev flagReg : BitVec 4 := 15#4

/-- `MEM_SIZE` (R9, R35): bytes of interpreter memory. -/
@[simp] abbrev memSize : Nat := 65536

/-- `AWIDTH` (R9, R24): bits of an address and of the program counter. -/
@[simp] abbrev awidth : Nat := 16

/-- `STACK_DEPTH` (R9, R29): call stack slots. -/
@[simp] abbrev stackDepth : Nat := 16

/-- `STACK_WIDTH` (R9, R29): bits of a call stack slot. -/
@[simp] abbrev stackWidth : Nat := 16

/-- `ILEN` (R9, R70): bytes per instruction. -/
@[simp] abbrev ilen : Nat := 2

/-- `RESET_PC` (R9, R182): the first instruction's address. -/
abbrev resetPc : BitVec awidth := BitVec.ofNat awidth 0x0000

/-- The first address that no instruction executes from, 0xFFFE (R26, R53, R80): the advance past it would leave the
address space. -/
@[simp] abbrev fetchLimit : Nat := memSize - ilen

/-- `NCHAN` (R10, R36): channels per Pixel. -/
@[simp] abbrev nchan : Nat := 4

/-- DESIGN CHOICE, unsafe (log 1): what a general register holds at reset; the spec gives no value (R40). -/
abbrev regFill : BitVec xlen := BitVec.ofNat xlen 0x00

/-- DESIGN CHOICE, unsafe (log 2): what a byte of memory that nothing has written reads as (R40 gives no value). -/
abbrev memFill : BitVec 8 := 0x00#8

/-- DESIGN CHOICE, unsafe (log 3): what a call stack slot holds at reset; the spec gives no value (R40). -/
abbrev slotFill : BitVec stackWidth := BitVec.ofNat stackWidth 0x0000

/-- FREE VALUE (log 4): the byte drawn at the construction of the compositor for one channel, indexed by tile row,
tile column, pixel row, pixel column and channel (R121, R123). Nothing constrains it. -/
opaque tileByte (trow tcol row col channel : Nat) : BitVec 8

end Config

/-- The six configuration constants of the compositor (R10). -/
structure CompositorConfig where
  /-- `SPRITE_WIDTH`: pixel columns per tile. -/
  spriteWidth : Nat
  /-- `SPRITE_HEIGHT`: pixel rows per tile. -/
  spriteHeight : Nat
  /-- `MAP_WIDTH`: tile columns in the TileMap. -/
  mapWidth : Nat
  /-- `MAP_HEIGHT`: tile rows in the TileMap. -/
  mapHeight : Nat
  /-- `SCREEN_WIDTH`: visible tile columns. -/
  screenWidth : Nat
  /-- `SCREEN_HEIGHT`: visible tile rows. -/
  screenHeight : Nat
deriving DecidableEq, Repr

/-- The constraints of R10: all six positive, the screen no larger than the map. -/
abbrev CompositorConfig.Valid (c : CompositorConfig) : Prop :=
  0 < c.spriteWidth ∧ 0 < c.spriteHeight ∧ 0 < c.mapWidth ∧ 0 < c.mapHeight ∧
    0 < c.screenWidth ∧ 0 < c.screenHeight ∧ c.screenWidth ≤ c.mapWidth ∧ c.screenHeight ≤ c.mapHeight

/-- The reference values of R10: 16x16 pixels per tile, a map and a screen of 9 rows of 10 tiles. -/
def CompositorConfig.reference : CompositorConfig where
  spriteWidth := 16
  spriteHeight := 16
  mapWidth := 10
  mapHeight := 9
  screenWidth := 10
  screenHeight := 9

end Sys2Proof
end

