-- ==== Sys2Proof/Word.lean ====
section
/-! DEFINITION. The bit vectors of the machine: what the spec treats as bits (R9, R12, R20, R24, R71), each of the
width the configuration names for it or, for bytes and instruction fields, of the width the encoding fixes.
Every value is unsigned (R12). -/

namespace Sys2Proof

/-- The contents of a general register, `XLEN` bits (R9, R20). -/
abbrev RegVal := BitVec Config.xlen

/-- An address of interpreter memory and the program counter, `AWIDTH` bits (R9, R24). -/
abbrev Addr := BitVec Config.awidth

/-- The contents of a call stack slot, `STACK_WIDTH` bits (R9, R29). -/
abbrev Slot := BitVec Config.stackWidth

/-- A byte of memory (R35, R50) and a channel of a Pixel (R36). -/
abbrev Byte := BitVec 8

/-- An instruction word, 16 bits (R70, R71). -/
abbrev Word := BitVec 16

/-- The register index fields `X` and `Y` (R71): 4 bits, so no index lies outside the file (R21). -/
abbrev RegIdx := BitVec 4

/-- The field `NNN` (R71): the 12-bit target of `CALL`. -/
abbrev Target := BitVec 12

end Sys2Proof
end

