-- ==== Sys2Proof/Syntax.lean ====
section
/-! DEFINITION. The instructions (R74), one constructor per row of the opcode table, and the assembler's lines
(R84, R85), which are only a notation for words. -/

namespace Sys2Proof

/-- The four instructions of the GBE-CORE ISA (R74). -/
inductive Instr where
  /-- `HALT`, the word 0x0000 (R90). -/
  | halt
  /-- `RET`, the word 0x00EE (R100). -/
  | ret
  /-- `CALL NNN`, the words 0x2NNN (R95). -/
  | call (nnn : Target)
  /-- `ADD rX, rY`, the words 0x8XY4 (R110). -/
  | add (x y : RegIdx)
deriving DecidableEq, Repr

/-- The operand of a `CALL` line: a number or a label (R84). -/
inductive AsmTarget where
  | addr (n : Nat)
  | label (name : String)
deriving DecidableEq, Repr

/-- What one assembler line places (R84): an instruction with the operands as written, or a `.word`. Register
operands are decimal indices `r0` to `r15` (R85); there are no pseudo-instructions (R86). -/
inductive AsmItem where
  | halt
  | ret
  | call (target : AsmTarget)
  | add (x y : Nat)
  | word (w : Nat)
deriving DecidableEq, Repr

/-- One assembler line: an optional `label:` and one item (R84). -/
structure AsmLine where
  label : Option String
  item : AsmItem
deriving DecidableEq, Repr

end Sys2Proof
end

