-- ==== Sys2Proof/WellFormed.lean ====
section
/-! DEFINITION. The checks on what the outside hands the core: instructions, assembler items, configurations. -/

namespace Sys2Proof

/-- Every instruction is well formed: a 4-bit index names a register of the file (R21) and a 12-bit field is a
target (R72), so the fields' types leave nothing to check. -/
def Instr.wellFormed : Instr → Bool
  | .halt => true
  | .ret => true
  | .call nnn => decide (nnn.toNat < 0x1000)
  | .add x y => decide (x.toNat < Config.nregs) && decide (y.toNat < Config.nregs)

/-- The operands an assembler item may hold (R84, R85): registers 0 to 15, a numeric target up to 0xFFF, a 16-bit
word. A label is checked where it is resolved. -/
def AsmItem.wellFormed : AsmItem → Bool
  | .halt => true
  | .ret => true
  | .call (.addr n) => decide (n ≤ 0xFFF)
  | .call (.label _) => true
  | .add x y => decide (x < Config.nregs) && decide (y < Config.nregs)
  | .word w => decide (w < 0x10000)

/-- The check of R11 on a configuration. -/
def CompositorConfig.wellFormed (c : CompositorConfig) : Bool := decide c.Valid

end Sys2Proof
end

