-- ==== Sys2Proof/Decode.lean ====
section
/-! DEFINITION. Words and bytes (R52, R70), the decoder (R71 to R76) and the encoder written from the same table
(R73, R74). -/

namespace Sys2Proof

/-- A word from its two bytes, the byte at the lower address most significant (R52). -/
def wordOfBytes (hi lo : Byte) : Word := hi ++ lo

/-- The most significant byte, stored at the lower address (R52, R70). -/
def hiByte (w : Word) : Byte := w.extractLsb' 8 8

/-- The least significant byte, stored at the higher address (R52, R70). -/
def loByte (w : Word) : Byte := w.extractLsb' 0 8

/-- `C` = `w[15:12]`, the major opcode (R71). -/
def fieldC (w : Word) : BitVec 4 := w.extractLsb' 12 4

/-- `X` = `w[11:8]`, the first register index (R71). -/
def fieldX (w : Word) : RegIdx := w.extractLsb' 8 4

/-- `Y` = `w[7:4]`, the second register index (R71). -/
def fieldY (w : Word) : RegIdx := w.extractLsb' 4 4

/-- `D` = `w[3:0]`, the minor opcode (R71). -/
def fieldD (w : Word) : BitVec 4 := w.extractLsb' 0 4

/-- `NNN` = `w[11:0]`, the call target (R71). -/
def fieldNNN (w : Word) : Target := w.extractLsb' 0 12

/-- What decoding a word gives (R75): an instruction, or `Unsupported` with the word. -/
inductive Decoded where
  | instr (i : Instr)
  | unsupported (w : Word)
deriving DecidableEq, Repr

/-- The decoder of R75, total on the 65536 words. -/
def decode (w : Word) : Decoded :=
  if w = 0x0000#16 then .instr .halt
  else if w = 0x00EE#16 then .instr .ret
  else if fieldC w = 0x2#4 then .instr (.call (fieldNNN w))
  else if fieldC w = 0x8#4 ∧ fieldD w = 0x4#4 then .instr (.add (fieldX w) (fieldY w))
  else .unsupported w

/-- What decoding a byte sequence gives: a decoded word and the bytes after it, or a rejection by name. -/
inductive ByteDecoded where
  | instr (i : Instr) (rest : List Byte)
  | unsupported (w : Word) (rest : List Byte)
  /-- Fewer than two bytes: no word. -/
  | truncated
deriving DecidableEq, Repr

/-- The decoder on bytes: it consumes exactly 2 of them (R70). -/
def decodeBytes : List Byte → ByteDecoded
  | hi :: lo :: rest =>
    match decode (wordOfBytes hi lo) with
    | .instr i => .instr i rest
    | .unsupported w => .unsupported w rest
  | _ => .truncated

/-- The layouts of R73: `fixed`, `addr` and `regreg`, fields most significant first. -/
def encode : Instr → Word
  | .halt => 0x0000#16
  | .ret => 0x00EE#16
  | .call nnn => 0x2#4 ++ nnn
  | .add x y => 0x8#4 ++ x ++ y ++ 0x4#4

/-- An instruction as the two bytes that stand in memory, most significant first (R70). -/
def encodeBytes (i : Instr) : List Byte := [hiByte (encode i), loByte (encode i)]

/-- One row of the opcode map (R74): a word `w` matches it when `w AND mask = match`. -/
structure OpcodeRow where
  mnemonic : String
  pattern : Word
  mask : Word
deriving DecidableEq, Repr

/-- A word matches a row (R74). -/
def OpcodeRow.matchesWord (r : OpcodeRow) (w : Word) : Bool := w &&& r.mask == r.pattern

/-- The row of R74 that an instruction stands in. -/
def opcodeRow : Instr → OpcodeRow
  | .halt => ⟨"HALT", 0x0000#16, 0xFFFF#16⟩
  | .ret => ⟨"RET", 0x00EE#16, 0xFFFF#16⟩
  | .call _ => ⟨"CALL", 0x2000#16, 0xF000#16⟩
  | .add _ _ => ⟨"ADD", 0x8004#16, 0xF00F#16⟩

/-- The opcode map of R74, its four rows in the table's order. -/
def opcodeTable : List OpcodeRow :=
  [opcodeRow .halt, opcodeRow .ret, opcodeRow (.call 0), opcodeRow (.add 0 0)]

/-- The word whose bits the opcode table numbers from 0 at the least significant; bits from `nbits` up are 0. -/
def tableWord (nbits w : Nat) : Word := BitVec.ofNat 16 (w % 2 ^ nbits)

/-- The instruction the decoder reads from a table word laid out in bytes as memory holds it. -/
def decodeTableWord (nbits w : Nat) : Option Instr :=
  match decodeBytes [hiByte (tableWord nbits w), loByte (tableWord nbits w)] with
  | .instr i _ => some i
  | .unsupported _ _ => none
  | .truncated => none

end Sys2Proof
end

