-- ==== Sys2Proof/Machine/Tiles.lean ====
section
/-! DEFINITION. Pixels, Sprites and the TileMap (R36 to R38), and how they are made (R120 to R123). -/

namespace Sys2Proof.Machine

/-- A Pixel: four unsigned 8-bit channels, named in the spec's order (R36). -/
structure Pixel where
  red : Byte
  green : Byte
  blue : Byte
  alpha : Byte
deriving DecidableEq, Repr, Inhabited

/-- `ch[0]` to `ch[3]` (R36), the order in which `draw` copies them (R135). -/
def Pixel.channels (p : Pixel) : List Byte := [p.red, p.green, p.blue, p.alpha]

/-- `ch[c]` (R36). -/
def Pixel.ch (p : Pixel) : Fin Config.nchan → Byte
  | 0 => p.red
  | 1 => p.green
  | 2 => p.blue
  | 3 => p.alpha

/-- A Sprite: a fixed grid of Pixels, indexed `sprite[row][col]` (R37). -/
abbrev Sprite (cfg : CompositorConfig) := Vector (Vector Pixel cfg.spriteWidth) cfg.spriteHeight

/-- The TileMap: a fixed grid of Sprites, indexed `tiles[trow][tcol]` (R38). -/
abbrev TileMap (cfg : CompositorConfig) := Vector (Vector (Sprite cfg) cfg.mapWidth) cfg.mapHeight

/-- A default-constructed Pixel: opaque cyan (R120). -/
def Pixel.cyan : Pixel := ⟨0, 255, 255, 255⟩

/-- A randomized Pixel: each channel takes the byte drawn for it (R121). -/
def Pixel.drawn (byte : Nat → Byte) : Pixel := ⟨byte 0, byte 1, byte 2, byte 3⟩

/-- An all-default Sprite (R122). -/
def Sprite.cyan (cfg : CompositorConfig) : Sprite cfg := Vector.ofFn fun _ => Vector.ofFn fun _ => Pixel.cyan

/-- An all-randomized Sprite (R122), from the bytes drawn for its pixel rows, columns and channels. -/
def Sprite.drawn (cfg : CompositorConfig) (byte : Nat → Nat → Nat → Byte) : Sprite cfg :=
  Vector.ofFn fun row => Vector.ofFn fun col => Pixel.drawn (byte row col)

/-- A TileMap with every Sprite independently randomized (R123), from the bytes drawn. -/
def TileMap.drawn (cfg : CompositorConfig) (byte : Nat → Nat → Nat → Nat → Nat → Byte) : TileMap cfg :=
  Vector.ofFn fun trow => Vector.ofFn fun tcol => Sprite.drawn cfg (byte trow tcol)

end Sys2Proof.Machine
end

