-- ==== Sys2Proof/Machine/State.lean ====
section
/-! DEFINITION. The state of the core (10_state.md), the reasons an operation can end without one, and reset. -/

namespace Sys2Proof.Machine

/-- Interpreter memory (R35): the bytes that differ from what an unlisted address reads as, by rising address. -/
abbrev Memory := List Host.Cell

/-- The interpreter faults of R150. Each ends a step in the state `Failed` (R152). -/
inductive FaultKind where
  /-- Code 1: decode matched no recognized instruction (R76). -/
  | unsupportedOpcode
  /-- Code 2: `CALL` at `sp = 16` (R96). -/
  | stackOverflow
  /-- Code 3: `RET` at `sp = 0` (R101). -/
  | stackUnderflow
  /-- Code 5: `pc ≥ 0xFFFE` before the fetch (R80). -/
  | fetchOutOfRange
deriving DecidableEq, Repr

/-- The fault record (R33). -/
structure FaultRecord where
  kind : FaultKind
  /-- The word fetched; absent when nothing was fetched. -/
  opcode : Option Word
  /-- `pc` at the start of the faulting step. -/
  faultPc : Addr
  /-- `sp` when the fault was raised. -/
  depth : Fin (Config.stackDepth + 1)
deriving DecidableEq, Repr

/-- The run state `status` (R32). -/
inductive RunState where
  | ready
  | running
  | halted
  | failed (f : FaultRecord)
deriving DecidableEq, Repr

/-- The compositor (R38): its configuration, which no operation writes (log 9), and the TileMap it owns. A
configuration that breaks R10 builds no compositor (R11). -/
structure Compositor where
  cfg : CompositorConfig
  valid : cfg.Valid
  tiles : TileMap cfg
deriving DecidableEq, Repr

/-- The core's whole state. -/
structure State where
  /-- `x[0]` to `x[15]` (R20); index 15 is the carry register (R22). -/
  regs : Vector RegVal Config.nregs
  /-- The program counter (R24). -/
  pc : Addr
  /-- The stack pointer, 0 to 16: the next free slot (R30). -/
  sp : Fin (Config.stackDepth + 1)
  /-- `stack[0]` to `stack[15]` (R29). -/
  stack : Vector Slot Config.stackDepth
  /-- The run state with its fault record (R32, R33). -/
  status : RunState
  /-- Interpreter memory (R35). -/
  mem : Memory
  /-- The compositor once it is constructed (R38, R181), none before. -/
  compositor : Option Compositor
deriving DecidableEq, Repr

/-- What a fault outcome reports. A step answers none of these: an interpreter fault is a next state with
status `Failed` (R152, log 7). -/
inductive Fault where
  /-- Code 4 (R134, R154), raised by `draw` alone, which returns it to its caller with no state changed.
  Safe: the spec states it. -/
  | bufferSizeMismatch (expected actual : Nat)
deriving DecidableEq, Repr

/-- Why an operation is refused: it has no effect (R185). No step is refused. -/
inductive Refusal where
  /-- Raised by an arm of `exec` whose instruction has no meaning in the model. Safe. No arm raises it. -/
  | notModelled (mnemonic : String)
  /-- Raised by `new_compositor` and `new_interpreter` on a configuration that breaks R10 (R11). Safe: stated. -/
  | invalidConfiguration
  /-- Raised by `new_compositor` when the compositor exists: it is constructed once (R185). Safe: stated. -/
  | compositorExists
  /-- Raised by `new_compositor` when startup is over and no compositor exists: it is constructed at startup (R185).
  Safe: the refusal is stated, what ends startup is log 12's. -/
  | startupOver
  /-- Raised by `draw` before `new_compositor` (R185). Safe: stated. -/
  | noCompositor
  /-- Raised by `load` and `set_reg` when `status` is not `Ready` (R185). Safe: stated. -/
  | notReady
deriving DecidableEq, Repr

/-- The interpreter as constructed (R40, R181), beside whatever the compositor part holds. Registers, slots and
memory hold the values of logs 1, 2 and 3. -/
def State.constructed (compositor : Option Compositor) : State where
  regs := Vector.replicate Config.nregs Config.regFill
  pc := Config.resetPc
  sp := 0
  stack := Vector.replicate Config.stackDepth Config.slotFill
  status := .ready
  mem := []
  compositor := compositor

/-- The interpreter constructed and the compositor not yet (R183, step 3 taken before step 2, as the rule allows).
DESIGN CHOICE (log 19): the model begins here; a core without an interpreter is no State, so what an operation does
before the first `new_interpreter`, of which R183 says that no rule holds, has no meaning in the model. -/
def State.bare : State := State.constructed none

/-- The compositor of the reference configuration (R10) with its TileMap drawn (R123): free values (log 4). -/
def Compositor.atReset : Compositor where
  cfg := .reference
  valid := by decide
  tiles := TileMap.drawn .reference Config.tileByte

/-- The core right after reset, which is the construction of its two parts (R40, R181). -/
def State.reset : State := State.constructed (some Compositor.atReset)

end Sys2Proof.Machine
end

