-- ==== Sys2Proof/Machine/Ops.lean ====
section
/-! DEFINITION. The named operations over memory, registers, the call stack and the run state (R13). -/

namespace Sys2Proof.Machine

/-! ### Memory -/

/-- The canonical form: addresses strictly rising, all inside the address space (R50), no entry equal to what an
unlisted address reads as. -/
abbrev Memory.wf (m : Memory) : Prop :=
  m.Pairwise (fun c d => c.1 < d.1) ∧ ∀ c ∈ m, c.1 < Config.memSize ∧ c.2 ≠ Config.memFill

/-- `mem[a]` (R50). An unlisted address reads as `Config.memFill` (log 2). -/
def Memory.read : Memory → Nat → Byte
  | [], _ => Config.memFill
  | (b, u) :: m, a => if b = a then u else Memory.read m a

/-- An entry in canonical form: a byte equal to what an unlisted address reads as is not listed. -/
def Memory.consCell (a : Nat) (v : Byte) (m : Memory) : Memory := if v = Config.memFill then m else (a, v) :: m

/-- `mem[a] <- v` (R56), keeping the canonical form. -/
def Memory.write : Memory → Nat → Byte → Memory
  | [], a, v => Memory.consCell a v []
  | (b, u) :: m, a, v =>
    if b < a then (b, u) :: Memory.write m a v
    else if b = a then Memory.consCell a v m
    else Memory.consCell a v ((b, u) :: m)

/-- The `n` bytes from an address upward (R13). -/
def Memory.readBytes (m : Memory) : Nat → Nat → List Byte
  | _, 0 => []
  | a, n + 1 => m.read a :: m.readBytes (a + 1) n

/-- Bytes assembled big-endian, the first the most significant (R13, R52). -/
def bigEndian (bytes : List Byte) : Nat := bytes.foldl (fun acc b => acc * 256 + b.toNat) 0

/-- `MemRead(addr, ILEN)` (R52), the only read of the core; called only with `addr` below `Config.fetchLimit`. -/
def Memory.readWord (m : Memory) (addr : Addr) : Word :=
  BitVec.ofNat 16 (bigEndian (m.readBytes addr.toNat Config.ilen))

/-- A word placed big-endian at an address (R70): two byte writes (R56). -/
def Memory.writeWord (m : Memory) (addr : Nat) (w : Word) : Memory :=
  (m.write addr (hiByte w)).write (addr + 1) (loByte w)

/-- `MemWrite(addr, 1, v)` (R56). -/
def State.memWrite (s : State) (addr : Addr) (v : Byte) : State := { s with mem := s.mem.write addr.toNat v }

/-! ### Registers and the program counter -/

/-- Every register field names a register of the file (R21). -/
theorem regIdx_lt (i : RegIdx) : i.toNat < Config.nregs := Nat.lt_of_lt_of_le i.isLt (by decide)

/-- `x[i]` (R13, R20). -/
def State.readReg (s : State) (i : RegIdx) : RegVal := s.regs[i.toNat]'(regIdx_lt i)

/-- `x[i] <- v` (R13, R20). Register 15 is written like any other (R22). -/
def State.writeReg (s : State) (i : RegIdx) (v : RegVal) : State := { s with regs := s.regs.set i.toNat v (regIdx_lt i) }

/-- `pc <- target` (R13). -/
def State.setPc (s : State) (target : Addr) : State := { s with pc := target }

/-- `pc <- a + ILEN` (R78, R80). -/
def State.advancePc (s : State) : State := s.setPc (s.pc + BitVec.ofNat Config.awidth Config.ilen)

/-- The address the step fetched from, while the instruction executes: `pc` already holds `a + ILEN` (R25, log 8). -/
def State.fetchedFrom (s : State) : Addr := s.pc - BitVec.ofNat Config.awidth Config.ilen

/-! ### The call stack -/

/-- `stack[sp] <- v; sp <- sp + 1` (R95), or none when the stack is full: `sp = 16` exactly (R96). -/
def State.push? (s : State) (v : Slot) : Option State :=
  if h : s.sp.val < Config.stackDepth then
    some { s with stack := s.stack.set s.sp.val v h, sp := ⟨s.sp.val + 1, Nat.succ_lt_succ h⟩ }
  else none

/-- `sp <- sp - 1`, with the value of `stack[sp]` after it (R100), or none when the stack is empty: `sp = 0`
(R101). The slot keeps its value (R100, D13). -/
def State.pop? (s : State) : Option (Slot × State) :=
  if h : 0 < s.sp.val then
    have below : s.sp.val - 1 < Config.stackDepth := by
      have := s.sp.isLt
      simp only [Config.stackDepth] at this ⊢
      omega
    some (s.stack[s.sp.val - 1], { s with sp := ⟨s.sp.val - 1, Nat.lt_succ_of_lt below⟩ })
  else none

/-- The live slots `stack[0]` to `stack[sp - 1]`, oldest first (R31). -/
def State.liveStack (s : State) : List Slot := s.stack.toList.take s.sp.val

/-! ### The run state -/

/-- `status <- s` (R13). -/
def State.setStatus (s : State) (status : RunState) : State := { s with status := status }

/-- `halt` (R13): the step ends with status `Halted`. -/
def State.halt (s : State) : State := s.setStatus .halted

/-- `raise F(info)` (R13, R152): status becomes `Failed` with the record of R33 and nothing else is written. There
is no handler, no vector and no return (R151, R157). -/
def State.raise (s : State) (kind : FaultKind) (opcode : Option Word) (faultPc : Addr) : State :=
  s.setStatus (.failed { kind := kind, opcode := opcode, faultPc := faultPc, depth := s.sp })

/-- `raise` inside an instruction: the word fetched is the instruction's own encoding and the fetch address is
`ILEN` below `pc` (R33, log 8). -/
def State.raiseIn (s : State) (i : Instr) (kind : FaultKind) : State :=
  s.raise kind (some (encode i)) s.fetchedFrom

/-- `Halted` and `Failed` are the only stopped states (R165). -/
def RunState.isStopped : RunState → Bool
  | .ready => false
  | .running => false
  | .halted => true
  | .failed _ => true

/-- The spec's number for an interpreter fault (R150). -/
def FaultKind.code : FaultKind → Nat
  | .unsupportedOpcode => 1
  | .stackOverflow => 2
  | .stackUnderflow => 3
  | .fetchOutOfRange => 5

/-- The spec's number for the compositor fault (R150). -/
def Fault.code : Fault → Nat
  | .bufferSizeMismatch _ _ => 4

/-! ### Placing an instruction word -/

/-- The word placed where the next step fetches (R70, R80). At `pc ≥ 0xFFFE` nothing is fetched (R53) and
nothing is placed (log 14). -/
def State.placeAtPc (s : State) (w : Word) : State :=
  if s.pc.toNat < Config.fetchLimit then { s with mem := s.mem.writeWord s.pc.toNat w } else s

end Sys2Proof.Machine
end

