-- ==== Sys2Proof/Machine/Operands.lean ====
section
/-! DEFINITION. Operand assembly (R72): the ISA has register operands and one 12-bit target; no addressing mode
exists (R55). -/

namespace Sys2Proof.Machine

/-- `zext_16(NNN)`, `AWIDTH` bits (R72): 0x0000 to 0x0FFF, nothing sign-extended, scaled or shifted. -/
def callTarget (nnn : Target) : Addr := nnn.zeroExtend Config.awidth

/-- A program counter as a call stack slot holds it, without loss (R24, R95). -/
def slotOfPc (pc : Addr) : Slot := pc.setWidth Config.stackWidth

/-- The program counter that a call stack slot holds (R24, R100). -/
def pcOfSlot (v : Slot) : Addr := v.setWidth Config.awidth

/-- The two source operands of `ADD`, both read before any write (R110). -/
def State.addOperands (s : State) (x y : RegIdx) : RegVal × RegVal := (s.readReg x, s.readReg y)

end Sys2Proof.Machine
end

