-- ==== Sys2Proof/Machine/Flags.lean ====
section
/-! DEFINITION. The `XLEN`-bit sum and its carry, the only flag (R28, R110, R111). -/

namespace Sys2Proof.Machine

/-- The exact sum, 0 to 510 (R110). -/
def exactSum (a b : RegVal) : Nat := a.toNat + b.toNat

/-- The sum modulo 256, `2 ^ XLEN` (R110). -/
def wrappedSum (a b : RegVal) : RegVal := BitVec.ofNat Config.xlen (exactSum a b)

/-- The carry out of the top bit, as the value `ADD` writes: 1 exactly when the true sum exceeds 255, the greatest
`XLEN`-bit value (R111). -/
def carryByte (a b : RegVal) : RegVal := BitVec.ofNat Config.xlen (if 2 ^ Config.xlen ≤ exactSum a b then 1 else 0)

/-- The flag write of `ADD` (R22, R110). -/
def State.setCarry (s : State) (v : RegVal) : State := s.writeReg Config.flagReg v

end Sys2Proof.Machine
end

