-- ==== Sys2Proof/Machine/Alu.lean ====
section
/-! DEFINITION. `ADD` (41_alu.md). It runs after the fetch, with `pc` at `a + 2`. -/

namespace Sys2Proof.Machine

/-- `ADD rX, rY` (R110): the sum to `x[X]`, then the carry to `x[15]`, written last (R112, D12). -/
def execAdd (x y : RegIdx) (s : State) : Host.Outcome State Fault Refusal :=
  let (a, b) := s.addOperands x y
  .next ((s.writeReg x (wrappedSum a b)).setCarry (carryByte a b))

end Sys2Proof.Machine
end

