-- ==== Sys2Proof/Machine/Control.lean ====
section
/-! DEFINITION. `HALT`, `CALL` and `RET` (40_control.md). Each runs after the fetch, with `pc` at `a + 2`. -/

namespace Sys2Proof.Machine

/-- `HALT` (R90). -/
def execHalt (s : State) : Host.Outcome State Fault Refusal := .next s.halt

/-- `CALL NNN` (R95, R96): push `pc`, then jump. -/
def execCall (nnn : Target) (s : State) : Host.Outcome State Fault Refusal :=
  match s.push? (slotOfPc s.pc) with
  | none => .next (s.raiseIn (.call nnn) .stackOverflow)
  | some t => .next (t.setPc (callTarget nnn))

/-- `RET` (R100, R101): pop into `pc`. -/
def execRet (s : State) : Host.Outcome State Fault Refusal :=
  match s.pop? with
  | none => .next (s.raiseIn .ret .stackUnderflow)
  | some (v, t) => .next (t.setPc (pcOfSlot v))

end Sys2Proof.Machine
end

