-- ==== Sys2Proof/Machine/Cycle.lean ====
section
/-! DEFINITION. The instruction cycle (R78 to R80), the host's `step()` and the loop of `run()` (R81). -/

namespace Sys2Proof.Machine

/-- The step of R80, defined when `status = Running`: check the fetch, fetch, advance, decode, execute. -/
def State.cycle (s : State) : Host.Outcome State Fault Refusal :=
  if s.pc.toNat < Config.fetchLimit then
    match decode (s.mem.readWord s.pc) with
    | .instr i => exec i s.advancePc
    | .unsupported w => .next (s.advancePc.raise .unsupportedOpcode (some w) s.pc)
  else .next (s.raise .fetchOutOfRange none s.pc)

/-- `if status = Ready then status <- Running` (R81, R185). -/
def State.start (s : State) : State :=
  match s.status with
  | .ready => s.setStatus .running
  | .running => s
  | .halted => s
  | .failed _ => s

/-- The host's `step()` (R185): enter `Running` from `Ready`, then one cycle; in a stopped state nothing changes. -/
def State.hostStep (s : State) : Host.Outcome State Fault Refusal :=
  if s.status.isStopped then .next s else s.start.cycle

/-- The first `turns` turns of `while status = Running do step()` (R81). -/
def State.loop : Nat → State → Host.Outcome State Fault Refusal
  | 0, s => .next s
  | turns + 1, s =>
    if s.status = .running then
      match s.cycle with
      | .next t => State.loop turns t
      | .fault r => .fault r
      | .refused r => .refused r
    else .next s

end Sys2Proof.Machine
end

