-- ==== Sys2Proof/Machine/Step.lean ====
section
/-! DEFINITION. The machine's step is the host's `step()` (R185, log 6), and where it fetches its next
instruction. -/

namespace Sys2Proof.Machine

/-- One step of the core, as the host calls it. -/
def step (s : State) : Host.Outcome State Fault Refusal := s.hostStep

/-- The state with a table word placed where the next step fetches (logs 5, 14). -/
def State.withFetchWord (s : State) (nbits w : Nat) : State := s.placeAtPc (tableWord nbits w)

end Sys2Proof.Machine
end

