-- ==== Sys2Proof/Machine/Assembler.lean ====
section
/-! DEFINITION. The assembler notation of R84 and R85 as a function from lines to bytes (log 15). -/

namespace Sys2Proof.Machine

/-- Why a program is not assembled. -/
inductive AsmError where
  /-- An operand that no encoding holds (R84, R85). -/
  | badOperand (item : AsmItem)
  /-- A `CALL` to a label that no line carries. -/
  | unknownLabel (name : String)
  /-- A label whose address is above 0x0FFF (R84). -/
  | labelOutOfReach (name : String) (address : Nat)
  /-- A label that two lines carry (log 15). -/
  | repeatedLabel (name : String)
deriving DecidableEq, Repr

/-- The assembler's answer: the bytes from address 0 upward, or the first error. -/
inductive AsmResult where
  | bytes (image : List Byte)
  | error (why : AsmError)
deriving DecidableEq, Repr

/-- The labels with the addresses of their lines, the first line at `address` (R84: one word of 2 bytes a line). -/
def labelTable : Nat → List AsmLine → List (String × Nat)
  | _, [] => []
  | address, line :: lines =>
    match line.label with
    | none => labelTable (address + Config.ilen) lines
    | some name => (name, address) :: labelTable (address + Config.ilen) lines

/-- The first label that stands twice in a table. -/
def repeatedLabel : List (String × Nat) → Option String
  | [] => none
  | (name, _) :: rest => if rest.any (fun e => e.1 == name) then some name else repeatedLabel rest

/-- The address of a label. -/
def lookupLabel (name : String) : List (String × Nat) → Option Nat
  | [] => none
  | (other, address) :: rest => if other = name then some address else lookupLabel name rest

/-- The word of one item (R84), the labels' addresses known. -/
def assembleItem (labels : List (String × Nat)) (item : AsmItem) : Word ⊕ AsmError :=
  if item.wellFormed then
    match item with
    | .halt => .inl (encode .halt)
    | .ret => .inl (encode .ret)
    | .call (.addr n) => .inl (encode (.call (BitVec.ofNat 12 n)))
    | .call (.label name) =>
      match lookupLabel name labels with
      | none => .inr (.unknownLabel name)
      | some address =>
        if address ≤ 0x0FFF then .inl (encode (.call (BitVec.ofNat 12 address)))
        else .inr (.labelOutOfReach name address)
    | .add x y => .inl (encode (.add (BitVec.ofNat 4 x) (BitVec.ofNat 4 y)))
    | .word w => .inl (BitVec.ofNat 16 w)
  else .inr (.badOperand item)

/-- The lines' bytes, each word placed big-endian (R70, R84). -/
def assembleLines (labels : List (String × Nat)) : List AsmLine → AsmResult
  | [] => .bytes []
  | line :: lines =>
    match assembleItem labels line.item with
    | .inr why => .error why
    | .inl w =>
      match assembleLines labels lines with
      | .bytes image => .bytes (hiByte w :: loByte w :: image)
      | .error why => .error why

/-- A program placed from address 0 (R58, R84). -/
def assemble (lines : List AsmLine) : AsmResult :=
  let labels := labelTable 0 lines
  match repeatedLabel labels with
  | some name => .error (.repeatedLabel name)
  | none => assembleLines labels lines

/-! ### Reading text -/

/-- A text cut at the characters that `cut` picks; the pieces may be empty. -/
def cutAt (cut : Char → Bool) : List Char → List (List Char)
  | [] => [[]]
  | c :: text =>
    match cutAt cut text with
    | [] => [[c]]
    | piece :: pieces => if cut c then [] :: piece :: pieces else (c :: piece) :: pieces

/-- The words of a line, without its comment: blanks and commas part them, and `;` starts a comment (R84). -/
def lineWords (text : List Char) : List (List Char) :=
  (cutAt (fun c => c = ' ' || c = '\t' || c = ',' || c = '\r') (text.takeWhile (fun c => c ≠ ';'))).filter
    (fun w => !w.isEmpty)

/-- The value of a digit in base 16 or below. -/
def digitValue (base : Nat) (c : Char) : Option Nat :=
  let n := c.toNat
  let v :=
    if '0'.toNat ≤ n ∧ n ≤ '9'.toNat then n - '0'.toNat
    else if 'a'.toNat ≤ n ∧ n ≤ 'f'.toNat then n - 'a'.toNat + 10
    else if 'A'.toNat ≤ n ∧ n ≤ 'F'.toNat then n - 'A'.toNat + 10
    else base
  if v < base then some v else none

/-- A number of at least one digit. DESIGN CHOICE (log 15): the count of digits is free, so that `0x1` and `0x0001` are
one number, where R84 writes `nnn` and `0xHHHH` and does not say whether the count is part of the syntax. -/
def readDigits (base : Nat) : List Char → Option Nat
  | [] => none
  | c :: cs => (c :: cs).foldl (fun acc d => do return (← acc) * base + (← digitValue base d)) (some 0)

/-- A hexadecimal number, written `0x...` (R84), of any count of digits (log 15). -/
def readHex : List Char → Option Nat
  | '0' :: 'x' :: digits => readDigits 16 digits
  | _ => none

/-- A register operand, `r0` to `r15` (R85); the bound is checked with the item. `r015` is no register, since `r15` has
no other spelling (R85). DESIGN CHOICE (log 15): nor is `r00` or `r07`, of which R85 says it not in so many words. -/
def readRegister : List Char → Option Nat
  | 'r' :: '0' :: _ :: _ => none
  | 'r' :: digits => readDigits 10 digits
  | _ => none

/-- An item from its words (R84). -/
def readItem : List (List Char) → Option AsmItem
  | [['H', 'A', 'L', 'T']] => some .halt
  | [['R', 'E', 'T']] => some .ret
  | [['C', 'A', 'L', 'L'], '0' :: 'x' :: digits] => (readHex ('0' :: 'x' :: digits)).map fun n => .call (.addr n)
  | [['C', 'A', 'L', 'L'], name] => some (.call (.label (String.ofList name)))
  | [['A', 'D', 'D'], x, y] => do return .add (← readRegister x) (← readRegister y)
  | [['.', 'w', 'o', 'r', 'd'], w] => (readHex w).map .word
  | _ => none

/-- A label from the word before an item: it ends in a colon (R84). -/
def readLabel (word : List Char) : Option String :=
  match word.reverse with
  | ':' :: name => some (String.ofList name.reverse)
  | _ => none

/-- A line from its words: a label, if the first word is one, and an item (R84). DESIGN CHOICE (log 15): a line with a
label and no item is none; R84 does not say whether a label may stand alone. -/
def readLine : List (List Char) → Option AsmLine
  | [] => none
  | first :: rest =>
    match readLabel first with
    | some name => (readItem rest).map fun item => { label := some name, item := item }
    | none => (readItem (first :: rest)).map fun item => { label := none, item := item }

/-- What reading a program text gives: its lines, or the number of the first line that is none (log 15). -/
inductive AsmText where
  | lines (program : List AsmLine)
  | badLine (number : Nat)
deriving DecidableEq, Repr

/-- Text lines read in order, `number` the first one's; a line with no words is passed over. -/
def readLines (number : Nat) : List (List Char) → AsmText
  | [] => .lines []
  | text :: texts =>
    match lineWords text, readLines (number + 1) texts with
    | [], rest => rest
    | words, rest =>
      match readLine words, rest with
      | none, _ => .badLine number
      | some line, .lines program => .lines (line :: program)
      | some _, .badLine n => .badLine n

/-- A program text, one instruction per line (R84). -/
def readProgram (text : List Char) : AsmText := readLines 1 (cutAt (fun c => c = '\n') text)

/-! ### Writing text -/

/-- A register operand as R85 spells it: `r0` to `r15`. -/
def registerName (i : Nat) : String := "r" ++ toString i

/-- A hexadecimal number as R84 spells it, `0x` and at least `digits` digits. -/
def hexNumber (digits n : Nat) : String :=
  let text := (Nat.toDigits 16 n).map Char.toUpper
  "0x" ++ String.ofList (List.replicate (digits - text.length) '0' ++ text)

/-- An item as R84 writes it. -/
def AsmItem.text : AsmItem → String
  | .halt => "HALT"
  | .ret => "RET"
  | .call (.addr n) => "CALL " ++ hexNumber 3 n
  | .call (.label name) => "CALL " ++ name
  | .add x y => "ADD " ++ registerName x ++ ", " ++ registerName y
  | .word w => ".word " ++ hexNumber 4 w

/-- A line as R84 writes it. -/
def AsmLine.text (line : AsmLine) : String :=
  match line.label with
  | none => AsmItem.text line.item
  | some name => name ++ ": " ++ AsmItem.text line.item

/-- The item that spells an instruction (R84). -/
def itemOf : Instr → AsmItem
  | .halt => .halt
  | .ret => .ret
  | .call nnn => .call (.addr nnn.toNat)
  | .add x y => .add x.toNat y.toNat

end Sys2Proof.Machine
end

