-- ==== Sys2Proof/Machine/Compositor.lean ====
section
/-! DEFINITION. The index mapper, the flattener and the pixel-buffer writer (45_compositor.md). -/

namespace Sys2Proof

/-- `W`, the display width in pixels (45_compositor.md, R127). -/
def CompositorConfig.displayWidth (c : CompositorConfig) : Nat := c.screenWidth * c.spriteWidth

/-- `N`, the pixel count of the framebuffer (R128). -/
def CompositorConfig.pixelCount (c : CompositorConfig) : Nat :=
  c.screenHeight * c.spriteHeight * c.screenWidth * c.spriteWidth

/-- `4 * N`, the byte length that `draw` requires (R133). -/
def CompositorConfig.byteCount (c : CompositorConfig) : Nat := Config.nchan * c.pixelCount

/-- `idx(i, j, k, l)`: tile row, row in the tile, tile column, column in the tile (R125). -/
def CompositorConfig.pixelIndex (c : CompositorConfig) (i j k l : Nat) : Nat :=
  i * c.spriteHeight * c.screenWidth * c.spriteWidth + j * c.screenWidth * c.spriteWidth + k * c.spriteWidth + l

/-- The place of a pixel on the screen: the digits `i`, `j`, `k`, `l` of R125. -/
structure PixelPlace where
  tileRow : Nat
  rowInTile : Nat
  tileCol : Nat
  colInTile : Nat
deriving DecidableEq, Repr

/-- The inverse of `idx` (R126), for `p < N`. -/
def CompositorConfig.placeOf (c : CompositorConfig) (p : Nat) : PixelPlace :=
  let y := p / c.displayWidth
  let x := p % c.displayWidth
  { tileRow := y / c.spriteHeight, rowInTile := y % c.spriteHeight,
    tileCol := x / c.spriteWidth, colInTile := x % c.spriteWidth }

namespace Machine

/-- `tiles[i][k][j][l]` (R127): only the sub-window from tile (0, 0) is read (R124), which lies inside the map
(R184). -/
def Compositor.pixel (c : Compositor) (i : Fin c.cfg.screenHeight) (j : Fin c.cfg.spriteHeight)
    (k : Fin c.cfg.screenWidth) (l : Fin c.cfg.spriteWidth) : Pixel :=
  have hi : i.val < c.cfg.mapHeight := Nat.lt_of_lt_of_le i.isLt c.valid.2.2.2.2.2.2.2
  have hk : k.val < c.cfg.mapWidth := Nat.lt_of_lt_of_le k.isLt c.valid.2.2.2.2.2.2.1
  ((c.tiles[i.val]'hi)[k.val]'hk)[j.val][l.val]

/-- `flatten()` (R129, R130): the four nested loops, `i` outermost and `l` innermost, each turn giving one Pixel. -/
def Compositor.flatten (c : Compositor) : List Pixel :=
  (List.finRange c.cfg.screenHeight).flatMap fun i =>
    (List.finRange c.cfg.spriteHeight).flatMap fun j =>
      (List.finRange c.cfg.screenWidth).flatMap fun k =>
        (List.finRange c.cfg.spriteWidth).map fun l => c.pixel i j k l

/-- The copy of R135: each Pixel's four channel bytes into its four-byte slice of the destination, in order. -/
def copyPixels : List Pixel → List Byte → List Byte
  | p :: ps, _ :: _ :: _ :: _ :: dest => p.red :: p.green :: p.blue :: p.alpha :: copyPixels ps dest
  | _, dest => dest

/-- What one `draw` call returns to its caller, with the destination as it leaves it (R134, R135). -/
inductive DrawResult where
  | ok (dest : List Byte)
  | failed (fault : Fault) (dest : List Byte)
deriving DecidableEq, Repr

/-- `draw(dest)` (R133 to R135): the length check stands before the copy, so a failing call writes nothing. -/
def Compositor.draw (c : Compositor) (dest : List Byte) : DrawResult :=
  if dest.length = c.cfg.byteCount then .ok (copyPixels c.flatten dest)
  else .failed (.bufferSizeMismatch c.cfg.byteCount dest.length) dest

end Machine

end Sys2Proof
end

