-- ==== Sys2Proof/Machine/HostApi.lean ====
section
/-! DEFINITION. The host interface (R185): the eight operations, when each is allowed, and its effect on the session
in which the host drives the core. -/

namespace Sys2Proof.Machine

/-- The host's operations (R185), with the host's inputs as arguments (log 17). -/
inductive HostOp where
  /-- `new_compositor(cfg)`, with the TileMap the host's random source draws for it (R6, R123: `TILES0`). -/
  | newCompositor (cfg : CompositorConfig) (tiles0 : TileMap cfg)
  /-- `new_interpreter(cfg)`. -/
  | newInterpreter (cfg : CompositorConfig)
  /-- `load(addr, byte)`. -/
  | load (addr : Addr) (byte : Byte)
  /-- `set_reg(i, v)`. -/
  | setReg (i : RegIdx) (v : RegVal)
  /-- `run()`, seen for its first `turns` turns (R82 gives no bound, log 11). -/
  | run (turns : Nat)
  /-- `step()`. -/
  | step
  /-- `read_state()`. -/
  | readState
  /-- `draw(dest)`, the host's buffer given by its bytes (R59, log 16). -/
  | draw (dest : List Byte)
deriving DecidableEq, Repr

/-- A core as a host drives it: the core, and whether startup, the time in which R185 allows `new_compositor`, still
lasts. DESIGN CHOICE (log 12): the spec does not say what ends startup; here it lasts until the first `load`, `set_reg`,
`run` or `step` that is carried out, since R183 puts the construction of the compositor before these. -/
structure Session where
  core : State
  startup : Bool
deriving DecidableEq, Repr

/-- What `read_state()` returns (R185): the live slots only (R31), and the fault record inside the status. -/
structure StateView where
  regs : Vector RegVal Config.nregs
  pc : Addr
  sp : Fin (Config.stackDepth + 1)
  liveStack : List Slot
  status : RunState
deriving DecidableEq, Repr

/-- What an operation returns to the host. -/
inductive Reply where
  /-- A construction, a load or a register write was made. -/
  | ok
  /-- `step()` and a returned `run()` report the run state (R81, R185), the fault record with it (R153). -/
  | status (status : RunState)
  /-- The turns given are over and `run()` has not returned (R82, log 11). -/
  | notReturned
  /-- What `read_state()` saw. -/
  | view (view : StateView)
  /-- What `draw` returned. -/
  | drawn (result : DrawResult)
  /-- The operation was not allowed and had no effect (R185). -/
  | refused (why : Refusal)
  /-- A step that stopped with a fault outcome; no step does (log 7). -/
  | stopped (why : Fault)
deriving DecidableEq, Repr

/-- `read_state()` (R185). -/
def State.view (s : State) : StateView where
  regs := s.regs
  pc := s.pc
  sp := s.sp
  liveStack := s.liveStack
  status := s.status

/-- The session of a core that has just been constructed: startup lasts (R183). -/
def Session.begin (s : State) : Session := { core := s, startup := true }

/-- The session after a `load`, `set_reg`, `run` or `step` that left the core `t`: startup is over (log 12). -/
def Session.used (t : State) : Session := { core := t, startup := false }

/-- `new_compositor(cfg)` (R123, R185): once, at startup, and with a configuration that R10 allows (R11). DESIGN CHOICE
(log 12): what ends startup (Session), and the order in which the reasons of a refusal are tried. The interpreter's run
state is not asked: while startup lasts it is the one that construction left (R181), `Ready`. -/
def Session.newCompositor (h : Session) (cfg : CompositorConfig) (tiles0 : TileMap cfg) : Reply × Session :=
  if valid : cfg.Valid then
    match h.core.compositor, h.startup with
    | some _, _ => (.refused .compositorExists, h)
    | none, false => (.refused .startupOver, h)
    | none, true =>
      (.ok, { h with core := { h.core with compositor := some { cfg := cfg, valid := valid, tiles := tiles0 } } })
  else (.refused .invalidConfiguration, h)

/-- `new_interpreter(cfg)` (R181, R185): the reset of the interpreter, at any time; the compositor is another part
(R3) and stays, and startup neither ends nor begins again (log 12). The interpreter takes nothing from `cfg` but that
R10 allows it (R11, log 10). -/
def Session.newInterpreter (h : Session) (cfg : CompositorConfig) : Reply × Session :=
  if cfg.wellFormed then (.ok, { h with core := State.constructed h.core.compositor })
  else (.refused .invalidConfiguration, h)

/-- `load(addr, byte)` (R56, R185). -/
def Session.load (h : Session) (addr : Addr) (byte : Byte) : Reply × Session :=
  if h.core.status = .ready then (.ok, .used (h.core.memWrite addr byte)) else (.refused .notReady, h)

/-- `set_reg(i, v)` (R185). -/
def Session.setReg (h : Session) (i : RegIdx) (v : RegVal) : Reply × Session :=
  if h.core.status = .ready then (.ok, .used (h.core.writeReg i v)) else (.refused .notReady, h)

/-- What the host hears of a step or of a run's turns, and the session they leave. -/
def Session.after (h : Session) (reply : RunState → Reply) : Host.Outcome State Fault Refusal → Reply × Session
  | .next t => (reply t.status, .used t)
  | .fault r => (.stopped r, h)
  | .refused r => (.refused r, h)

/-- The reply of a `run()` whose turns end in a run state: a run that is still `Running` has not returned. -/
def runReply : RunState → Reply
  | .ready => .status .ready
  | .running => .notReturned
  | .halted => .status .halted
  | .failed f => .status (.failed f)

/-- `run()` for its first turns (R81). -/
def Session.run (h : Session) (turns : Nat) : Reply × Session := h.after runReply (h.core.start.loop turns)

/-- `step()` (R185). -/
def Session.step (h : Session) : Reply × Session := h.after .status (Machine.step h.core)

/-- `draw(dest)` (R132, R136): it reads the compositor alone and changes no state. -/
def Session.draw (h : Session) (dest : List Byte) : Reply × Session :=
  match h.core.compositor with
  | none => (.refused .noCompositor, h)
  | some c => (.drawn (c.draw dest), h)

/-- One host operation (R185). -/
def hostCall (op : HostOp) (h : Session) : Reply × Session :=
  match op with
  | .newCompositor cfg tiles0 => h.newCompositor cfg tiles0
  | .newInterpreter cfg => h.newInterpreter cfg
  | .load addr byte => h.load addr byte
  | .setReg i v => h.setReg i v
  | .run turns => h.run turns
  | .step => h.step
  | .readState => (.view h.core.view, h)
  | .draw dest => h.draw dest

/-- Host operations in order, each complete before the next begins (R61, R185): the replies and the session left. A
`run()` that has not returned lets none of the operations after it begin (log 11). -/
def hostSession : List HostOp → Session → List Reply × Session
  | [], h => ([], h)
  | op :: ops, h =>
    if (hostCall op h).1 = .notReturned then ([.notReturned], (hostCall op h).2)
    else
      let rest := hostSession ops (hostCall op h).2
      ((hostCall op h).1 :: rest.1, rest.2)

/-- The launch state of a run (R180): the three constants and the host's inputs, with any bytes in the slots. -/
def State.launch (regs0 : Vector RegVal Config.nregs) (image : Memory) (stack0 : Vector Slot Config.stackDepth)
    (compositor : Option Compositor) : State where
  regs := regs0
  pc := Config.resetPc
  sp := 0
  stack := stack0
  status := .ready
  mem := image
  compositor := compositor

end Sys2Proof.Machine
end

