-- ==== Sys2Proof/Safety.lean ====
section
/-! DEFINITION. The terms in which claims speak: what agrees with the spec in every state a step keeps, what the
host can see, what a run does, and what a safe run is. -/

namespace Sys2Proof.Machine

/-- The program counter can be fetched from (R26, R53). -/
abbrev State.Fetchable (s : State) : Prop := s.pc.toNat < Config.fetchLimit

/-- The run state is one that a step acts in (R185). -/
abbrev State.Active (s : State) : Prop := s.status = .ready ∨ s.status = .running

/-- The word at a step's fetch address (R80). -/
abbrev State.fetched (s : State) : Word := s.mem.readWord s.pc

/-- A return address (R31, R95): the address after a `CALL` word that stands in memory where a fetch reaches it. -/
structure Memory.ReturnAddress (m : Memory) (v : Slot) : Prop where
  past : Config.ilen ≤ v.toNat
  fetchable : v.toNat - Config.ilen < Config.fetchLimit
  call : fieldC (m.readWord (BitVec.ofNat Config.awidth (v.toNat - Config.ilen))) = 0x2#4

/-- Every live slot holds the return address of a call not yet returned (R31). -/
abbrev State.LiveSlotsAreReturns (s : State) : Prop := ∀ v ∈ s.liveStack, s.mem.ReturnAddress v

/-- A `Ready` interpreter is as its construction left it but for what the host sets (R181, R185): `pc` at the entry
point and an empty call stack. -/
def State.ReadyAtEntry (s : State) : Prop := s.status = .ready → s.pc = Config.resetPc ∧ s.sp.val = 0

/-- What a fault raised after the fetch records (R33, R152): the word at the fetch address, `ILEN` below `pc`. -/
def FaultRecord.RecordsFetch (f : FaultRecord) (s : State) : Prop :=
  f.faultPc.toNat < Config.fetchLimit ∧ s.pc.toNat = f.faultPc.toNat + Config.ilen ∧ f.opcode = some (s.mem.readWord f.faultPc)

/-- A fault record tells what the state shows (R33, R150, R152): the address, the word that stands there, the depth,
and the condition of its kind. -/
def FaultRecord.Agrees (f : FaultRecord) (s : State) : Prop :=
  f.depth = s.sp ∧
    match f.kind with
    | .unsupportedOpcode =>
      f.RecordsFetch s ∧ decode (s.mem.readWord f.faultPc) = .unsupported (s.mem.readWord f.faultPc)
    | .stackOverflow =>
      f.RecordsFetch s ∧ s.sp.val = Config.stackDepth ∧ fieldC (s.mem.readWord f.faultPc) = 0x2#4
    | .stackUnderflow => f.RecordsFetch s ∧ s.sp.val = 0 ∧ s.mem.readWord f.faultPc = 0x00EE#16
    | .fetchOutOfRange => f.opcode = none ∧ f.faultPc = s.pc ∧ Config.fetchLimit ≤ s.pc.toNat

/-- A stopped state shows why it stopped (R32, R90): `Halted` stands `ILEN` past a `HALT` word, `Failed` agrees with
its record. -/
def State.StopExplained (s : State) : Prop :=
  match s.status with
  | .ready => True
  | .running => True
  | .halted =>
    Config.ilen ≤ s.pc.toNat ∧ s.mem.readWord (BitVec.ofNat Config.awidth (s.pc.toNat - Config.ilen)) = 0x0000#16
  | .failed f => f.Agrees s

/-- The core's invariant: memory in canonical form, live slots that hold return addresses, `Ready` at the entry point,
an explained stop. -/
structure State.Inv (s : State) : Prop where
  memory : s.mem.wf
  slots : s.LiveSlotsAreReturns
  entry : s.ReadyAtEntry
  stop : s.StopExplained

/-- The invariant of a host's session: the core's, and a `Ready` interpreter while startup lasts (R183). -/
structure Session.Inv (h : Session) : Prop where
  core : h.core.Inv
  startup : h.startup = true → h.core.status = .ready

/-- Two states that differ at most in dead slots (R31, D9, D13). -/
structure SameButDeadSlots (s t : State) : Prop where
  regs : s.regs = t.regs
  pc : s.pc = t.pc
  sp : s.sp = t.sp
  live : s.liveStack = t.liveStack
  status : s.status = t.status
  mem : s.mem = t.mem
  compositor : s.compositor = t.compositor

/-- Even in the source's sense (§3, R27): the program counter and every live return address. -/
structure State.EvenPc (s : State) : Prop where
  pc : s.pc.toNat % 2 = 0
  slots : ∀ v ∈ s.liveStack, v.toNat % 2 = 0

/-- Every `CALL` word at an even address has an even target (R27's premise). -/
def Memory.EvenCalls (m : Memory) : Prop :=
  ∀ (a : Addr) (nnn : Target), a.toNat % 2 = 0 → decode (m.readWord a) = .instr (.call nnn) → nnn.toNat % 2 = 0

/-- An outcome with its next state changed by `f`: two runs agree but for what `f` sets. -/
def mapNext (f : State → State) : Host.Outcome State Fault Refusal → Host.Outcome State Fault Refusal
  | .next t => .next (f t)
  | .fault r => .fault r
  | .refused r => .refused r

/-- `run()` called here returns and leaves the state `t` (R81). -/
def State.RunReturns (s t : State) : Prop :=
  ∃ turns, s.start.loop turns = .next t ∧ t.status.isStopped = true

/-- A `run()` that never returns (R82). -/
def State.RunsForever (s : State) : Prop :=
  ∀ turns, ∃ t, s.start.loop turns = .next t ∧ t.status = .running

/-- A safe run: it returns, and with success (R81, R191). -/
def State.RunIsSafe (s : State) : Prop := ∃ t, s.RunReturns t ∧ t.status = .halted

end Sys2Proof.Machine
end

