-- ==== Sys2Proof/Certificates/Slice0/Obligations.lean ====
section
/-! DEFINITION. The statements for the provers. Each docstring names the spec's sentence or section it formalises;
where a clause rests on a decision of 92_eei_decisions.md or on a log entry of the model, it says so. -/

open Sys2Proof Sys2Proof.Machine

/-! ### Encoding and decoding (30_encoding.md) -/

/-- 95_test_vectors.md, V-DEC: words written out from the encodings of R73 decode to what they stand for. -/
def Obligations.WrittenWordsDecode : Prop :=
  decode 0b0000000000000000#16 = .instr .halt ∧
  decode 0b0000000011101110#16 = .instr .ret ∧
  decode 0b0010101010111100#16 = .instr (.call 0xABC#12) ∧
  decode 0b0010111111111111#16 = .instr (.call 0xFFF#12) ∧
  decode 0b1000000100100100#16 = .instr (.add 1#4 2#4) ∧
  decode 0b1000111111110100#16 = .instr (.add 15#4 15#4) ∧
  decode 0b0000000011100000#16 = .unsupported 0x00E0#16 ∧
  decode 0b1000000100100101#16 = .unsupported 0x8125#16 ∧
  decode 0b1111111111111111#16 = .unsupported 0xFFFF#16

/-- 30_encoding.md section 1: a word is its four nibbles and `NNN` is the last three of them. The order of the nibbles,
most significant first, is one that R71 itself marks as derived, from the patterns of R74. -/
def Obligations.WordSplitsIntoFields : Prop :=
  ∀ w : Word,
    w.toNat = (fieldC w).toNat * 0x1000 + (fieldX w).toNat * 0x100 + (fieldY w).toNat * 0x10 + (fieldD w).toNat ∧
    (fieldNNN w).toNat = (fieldX w).toNat * 0x100 + (fieldY w).toNat * 0x10 + (fieldD w).toNat

/-- R75: decode is total, each of the four instructions is read from the words of its pattern and with its fields, and
every other word is `Unsupported`. -/
def Obligations.DecodeFollowsOpcodeMap : Prop :=
  ∀ w : Word,
    (decode w = .instr .halt ↔ w = 0x0000#16) ∧
    (decode w = .instr .ret ↔ w = 0x00EE#16) ∧
    (∀ nnn, decode w = .instr (.call nnn) ↔ w.toNat / 0x1000 = 0x2 ∧ nnn.toNat = w.toNat % 0x1000) ∧
    (∀ x y, decode w = .instr (.add x y) ↔
      w.toNat / 0x1000 = 0x8 ∧ w.toNat % 0x10 = 0x4 ∧
        x.toNat = w.toNat / 0x100 % 0x10 ∧ y.toNat = w.toNat / 0x10 % 0x10) ∧
    (∀ v, decode w = .unsupported v ↔
      v = w ∧ w ≠ 0x0000#16 ∧ w ≠ 0x00EE#16 ∧ w.toNat / 0x1000 ≠ 0x2 ∧
        ¬ (w.toNat / 0x1000 = 0x8 ∧ w.toNat % 0x10 = 0x4))

/-- 30_encoding.md section 2 (the match and mask columns): no word matches two rows of the opcode map, and a word
decodes to an instruction exactly when it matches a row. -/
def Obligations.OpcodeRowsAreExact : Prop :=
  (opcodeTable.Pairwise fun r q => ∀ w, ¬ (r.matchesWord w = true ∧ q.matchesWord w = true)) ∧
  ∀ w, (∃ i, decode w = .instr i) ↔ ∃ r ∈ opcodeTable, r.matchesWord w = true

/-- Headline: decode and encode agree on every well-formed instruction with every operand, as a word and as the two
bytes in memory, whatever follows them (R70, R73). -/
def Obligations.DecodeOfEncode : Prop :=
  ∀ i : Instr, i.wellFormed = true →
    decode (encode i) = .instr i ∧ ∀ rest, decodeBytes (encodeBytes i ++ rest) = .instr i rest

/-- The other direction: a word that decodes to an instruction is that instruction's encoding, so no two words
have one meaning (R74). The fault record's opcode rests on it (log 8). -/
def Obligations.EncodeOfDecode : Prop :=
  ∀ (w : Word) (i : Instr), decode w = .instr i → encode i = w

/-- 30_encoding.md section 4 (D11, log 15): the lines that spell a list of instructions assemble to their words, in
order, two big-endian bytes each. -/
def Obligations.AssemblerPlacesEncodings : Prop :=
  ∀ program : List Instr,
    assemble (program.map fun i => { label := none, item := itemOf i }) = .bytes (program.flatMap encodeBytes)

/-! ### The step (30_encoding.md R80, 70_reset_and_hazards.md R185) -/

/-- When the bytes at `pc` decode to `i`, a step is `exec i` with the run state `Running` and `pc` two further
(R78, R80; the fetch bound is the spec's decision D3, the host's `step()` is D19). -/
def Obligations.StepRunsDecodedInstruction : Prop :=
  ∀ (s : State) (i : Instr), s.Active → s.pc.toNat ≤ 0xFFFD →
    decodeBytes [s.mem.read s.pc.toNat, s.mem.read (s.pc.toNat + 1)] = .instr i [] →
    step s = exec i { s with status := .running, pc := s.pc + 2#16 }

/-- 60_exceptions.md sections 1 and 2 (D5): an unsupported word faults; only `pc` has advanced. -/
def Obligations.UnsupportedWordFaults : Prop :=
  ∀ (s : State) (w : Word), s.Active → s.pc.toNat ≤ 0xFFFD → decode s.fetched = .unsupported w →
    step s = .next { s with
      pc := s.pc + 2#16,
      status := .failed { kind := .unsupportedOpcode, opcode := some w, faultPc := s.pc, depth := s.sp } }

/-- The spec's decision D3: a fetch at 0xFFFE or 0xFFFF faults, reads nothing and moves nothing. -/
def Obligations.FetchOutOfRangeFaults : Prop :=
  ∀ s : State, s.Active → 0xFFFE ≤ s.pc.toNat →
    step s = .next { s with
      status := .failed { kind := .fetchOutOfRange, opcode := none, faultPc := s.pc, depth := s.sp } }

/-- 20_memory.md section 2: the word fetched is the big-endian pair at `pc`; a step sees no other byte of memory, and at
`pc ≥ 0xFFFE` none at all (the spec's decision D3). -/
def Obligations.FetchIsBigEndianPair : Prop :=
  (∀ (m : Memory) (addr : Addr), addr.toNat ≤ 0xFFFD →
    m.readWord addr = m.read addr.toNat ++ m.read (addr.toNat + 1) ∧
    (m.readWord addr).toNat = (m.read addr.toNat).toNat * 256 + (m.read (addr.toNat + 1)).toNat) ∧
  (∀ (s : State) (m : Memory), s.pc.toNat ≤ 0xFFFD → m.read s.pc.toNat = s.mem.read s.pc.toNat →
    m.read (s.pc.toNat + 1) = s.mem.read (s.pc.toNat + 1) →
    step { s with mem := m } = mapNext (fun t => { t with mem := m }) (step s)) ∧
  (∀ (s : State) (m : Memory), 0xFFFE ≤ s.pc.toNat →
    step { s with mem := m } = mapNext (fun t => { t with mem := m }) (step s))

/-- Every step of every state answers a next state: no step is refused and none ends in a fault outcome
(30_encoding.md section 2: every combination maps to an instruction or to the failure; log 7). -/
def Obligations.EveryStepAnswersNext : Prop :=
  ∀ s : State, ∃ t, step s = .next t

/-- 60_exceptions.md sections 1 to 3: from a state a step acts in, each fault arises exactly under its condition, `Halted`
exactly on the word 0x0000, and `Running` otherwise; no step leads to `Ready` (fetch bound: D3; the operation: D19). -/
def Obligations.StepOutcomeConditions : Prop :=
  ∀ s t : State, s.Active → step s = .next t →
    ((∃ f, t.status = .failed f ∧ f.kind = .fetchOutOfRange) ↔ 0xFFFE ≤ s.pc.toNat) ∧
    ((∃ f, t.status = .failed f ∧ f.kind = .unsupportedOpcode) ↔
      s.pc.toNat ≤ 0xFFFD ∧ decode s.fetched = .unsupported s.fetched) ∧
    ((∃ f, t.status = .failed f ∧ f.kind = .stackOverflow) ↔
      s.pc.toNat ≤ 0xFFFD ∧ s.fetched.toNat / 0x1000 = 0x2 ∧ s.sp.val = 16) ∧
    ((∃ f, t.status = .failed f ∧ f.kind = .stackUnderflow) ↔
      s.pc.toNat ≤ 0xFFFD ∧ s.fetched = 0x00EE#16 ∧ s.sp.val = 0) ∧
    (t.status = .halted ↔ s.pc.toNat ≤ 0xFFFD ∧ s.fetched = 0x0000#16) ∧
    t.status ≠ .ready

/-- 60_exceptions.md section 2 (D5, D10): fault entry is precise. Registers, `sp`, slots, memory and the compositor are
as before the step; the record and `pc` are those of the fault. -/
def Obligations.FaultEntryIsPrecise : Prop :=
  ∀ (s t : State) (f : FaultRecord), s.Active → step s = .next t → t.status = .failed f →
    t.regs = s.regs ∧ t.sp = s.sp ∧ t.stack = s.stack ∧ t.mem = s.mem ∧ t.compositor = s.compositor ∧
    f.faultPc = s.pc ∧ f.depth = s.sp ∧
    (f.kind = .fetchOutOfRange → f.opcode = none ∧ t.pc = s.pc) ∧
    (f.kind ≠ .fetchOutOfRange → f.opcode = some s.fetched ∧ t.pc.toNat = s.pc.toNat + 2)

/-! ### Control instructions (40_control.md) -/

/-- 40_control.md section 1 (`pc` after `HALT`: D5): `HALT` sets `status` to `Halted` and writes nothing else. -/
def Obligations.HaltStopsWithSuccess : Prop :=
  encode .halt = 0x0000#16 ∧
  ∀ s : State, exec .halt s = .next { s with status := .halted }

/-- 40_control.md section 2 (R95, R96): at `sp ≠ 16`, `CALL` pushes `pc` (the address after the `CALL`), increments `sp`
and jumps to the target; at `sp = 16` exactly, it faults and writes no slot, no `sp` and no `pc`. That the record holds
the encoding and `pc - 2` is read from the spec by inference (log 8, DEDUCED), and `fault_pc` is the spec's own addition
(D10). -/
def Obligations.CallPushesAndJumpsOrOverflows : Prop :=
  ∀ (nnn : Target) (s : State),
    (encode (.call nnn)).toNat = 0x2000 + nnn.toNat ∧
    (∀ h : s.sp.val < 16, ∃ t, exec (.call nnn) s = .next t ∧
      t.stack[s.sp.val] = s.pc ∧ (∀ (k : Nat) (hk : k < 16), k ≠ s.sp.val → t.stack[k] = s.stack[k]) ∧
      t.sp.val = s.sp.val + 1 ∧ t.pc.toNat = nnn.toNat ∧
      t.regs = s.regs ∧ t.status = s.status ∧ t.mem = s.mem ∧ t.compositor = s.compositor) ∧
    (s.sp.val = 16 → exec (.call nnn) s = .next { s with
      status := .failed
        { kind := .stackOverflow, opcode := some (encode (.call nnn)), faultPc := s.pc - 2#16, depth := 16 } })

/-- 40_control.md section 3 (the kept slot: D13): at `sp ≠ 0`, `RET` decrements `sp` and sets `pc` to the slot there;
it writes nothing else. -/
def Obligations.RetPopsIntoPc : Prop :=
  encode .ret = 0x00EE#16 ∧
  ∀ (s : State) (k : Nat) (hk : k < 16), s.sp.val = k + 1 → ∃ t, exec .ret s = .next t ∧
    t.pc = s.stack[k] ∧ t.sp.val = k ∧
    t.stack = s.stack ∧ t.regs = s.regs ∧ t.status = s.status ∧ t.mem = s.mem ∧ t.compositor = s.compositor

/-- 40_control.md section 3 (R101): `RET` with an empty stack faults with `StackUnderflow` and writes nothing. The record
is not the rule's: that it holds 0x00EE and `pc - 2` is read from the spec by inference (log 8, DEDUCED), and `fault_pc`
is the spec's own addition (D10). -/
def Obligations.RetUnderflowsWhenEmpty : Prop :=
  ∀ s : State, s.sp.val = 0 →
    exec .ret s = .next { s with
      status := .failed
        { kind := .stackUnderflow, opcode := some 0x00EE#16, faultPc := s.pc - 2#16, depth := 0 } }

/-- 40_control.md section 4, the round-trip law: a `CALL` at `a` and a `RET` at its target restore `pc = a + 2` and
`sp`, with registers unchanged and `status = Running`. -/
def Obligations.CallThenRetRoundTrip : Prop :=
  ∀ (s : State) (nnn : Target) (h : s.sp.val < 16), s.status = .running → s.pc.toNat ≤ 0xFFFD →
    s.mem.readWord s.pc = encode (.call nnn) → s.mem.readWord (nnn.zeroExtend 16) = encode .ret →
    ∃ t u, step s = .next t ∧ step t = .next u ∧
      u.pc.toNat = s.pc.toNat + 2 ∧ u.sp = s.sp ∧ u.stack[s.sp.val] = u.pc ∧ u.regs = s.regs ∧ u.status = .running

/-- 40_control.md section 4: from `sp = 0`, sixteen `CALL`s with no `RET` between them succeed and the seventeenth
faults with `depth = 16`. -/
def Obligations.SeventeenthCallOverflows : Prop :=
  ∀ trace : Nat → State, (trace 0).status = .running → (trace 0).sp.val = 0 →
    (∀ k, k ≤ 16 → step (trace k) = .next (trace (k + 1)) ∧ (trace k).pc.toNat ≤ 0xFFFD ∧
      ∃ nnn, (trace k).fetched = encode (.call nnn)) →
    (∀ k, k ≤ 16 → (trace k).sp.val = k ∧ (trace k).status = .running) ∧
    ∃ f, (trace 17).status = .failed f ∧ f.kind = .stackOverflow ∧ f.depth.val = 16 ∧ (trace 17).sp.val = 16

/-! ### ADD (41_alu.md) -/

/-- 41_alu.md section 1: `ADD` completes in every state, for every pair of registers. `x[X]` takes the sum modulo 256
and `x[15]` the unsigned carry; with `X = 15` the carry is what stays (the spec's decision D12). Nothing else moves. -/
def Obligations.AddWritesSumAndCarry : Prop :=
  ∀ (x y : RegIdx) (s : State),
    (encode (.add x y)).toNat = 0x8004 + x.toNat * 0x100 + y.toNat * 0x10 ∧
    ∃ t, exec (.add x y) s = .next t ∧
      (x ≠ 15#4 → (t.readReg x).toNat = ((s.readReg x).toNat + (s.readReg y).toNat) % 256) ∧
      (t.readReg 15#4).toNat = (if (s.readReg x).toNat + (s.readReg y).toNat > 255 then 1 else 0) ∧
      (∀ r, r ≠ x → r ≠ 15#4 → t.readReg r = s.readReg r) ∧
      t.pc = s.pc ∧ t.sp = s.sp ∧ t.stack = s.stack ∧ t.status = s.status ∧ t.mem = s.mem ∧
      t.compositor = s.compositor

/-- 41_alu.md section 1 (R113, R114, derived there; `r15` as destination: D12): a register added to itself doubles modulo
256 and carries exactly from 128; the old flag is an ordinary source. -/
def Obligations.AddWithEqualOrFlagOperands : Prop :=
  ∀ (s t : State) (x : RegIdx),
    (exec (.add x x) s = .next t →
      (x ≠ 15#4 → (t.readReg x).toNat = 2 * (s.readReg x).toNat % 256) ∧
      (t.readReg 15#4 = 1#8 ↔ 128 ≤ (s.readReg x).toNat) ∧ (t.readReg 15#4 = 0#8 ↔ (s.readReg x).toNat < 128)) ∧
    (exec (.add x 15#4) s = .next t → x ≠ 15#4 → t.readReg x = s.readReg x + s.readReg 15#4) ∧
    (exec (.add 15#4 x) s = .next t →
      (t.readReg 15#4 = 1#8 ↔ 255 < (s.readReg 15#4).toNat + (s.readReg x).toNat) ∧
      (t.readReg 15#4 = 0#8 ↔ (s.readReg 15#4).toNat + (s.readReg x).toNat ≤ 255))

/-! ### Frames over all instructions -/

/-- R55: no instruction reads or writes data memory. Each leaves every byte as it was, and answers the same whatever
memory holds; the TileMap is out of its reach as well. -/
def Obligations.NoInstructionTouchesMemory : Prop :=
  (∀ (i : Instr) (s t : State), exec i s = .next t →
    t.mem = s.mem ∧ (∀ a, t.mem.read a = s.mem.read a) ∧ t.compositor = s.compositor) ∧
  (∀ (i : Instr) (s : State) (m : Memory),
    exec i { s with mem := m } = mapNext (fun t => { t with mem := m }) (exec i s)) ∧
  ∀ (i : Instr) (s : State) (c : Option Compositor),
    exec i { s with compositor := c } = mapNext (fun t => { t with compositor := c }) (exec i s)

/-- 10_state.md sections 1, 2 and 4: what each step of the machine leaves alone. A register changes only by an `ADD`
that names it as destination or as the flag register; a slot only by a `CALL` at that `sp`; `sp` only by `CALL` (up
one) and `RET` (down one); memory and the compositor never. -/
def Obligations.StepFrame : Prop :=
  ∀ s t : State, step s = .next t →
    (∀ r, t.readReg r ≠ s.readReg r → ∃ x y, s.fetched = encode (.add x y) ∧ (r = x ∨ r = 15#4)) ∧
    (∀ (k : Nat) (hk : k < 16), t.stack[k] ≠ s.stack[k] →
      k = s.sp.val ∧ ∃ nnn, s.fetched = encode (.call nnn)) ∧
    (t.sp = s.sp ∨ (t.sp.val = s.sp.val + 1 ∧ ∃ nnn, s.fetched = encode (.call nnn)) ∨
      (t.sp.val + 1 = s.sp.val ∧ s.fetched = encode .ret)) ∧
    t.mem = s.mem ∧ (∀ a, t.mem.read a = s.mem.read a) ∧ t.compositor = s.compositor

/-- R3: the two parts share no mutable state. The interpreter steps the same whatever the compositor holds and leaves
it as it was; `draw` changes nothing and answers the same whatever the interpreter holds. -/
def Obligations.PartsShareNothing : Prop :=
  (∀ (s : State) (c : Option Compositor),
    step { s with compositor := c } = mapNext (fun t => { t with compositor := c }) (step s)) ∧
  (∀ s t : State, step s = .next t → t.compositor = s.compositor) ∧
  (∀ (h : Session) (dest : List Byte), (hostCall (.draw dest) h).2 = h) ∧
  ∀ (h k : Session) (dest : List Byte), h.core.compositor = k.core.compositor →
    (hostCall (.draw dest) h).1 = (hostCall (.draw dest) k).1

/-- 10_state.md section 4 (D9, D13): slots at and above `sp` are never read. States that differ only there step to
states that differ only there, and the host sees one view of both. -/
def Obligations.DeadSlotsAreUnobservable : Prop :=
  ∀ s t : State, SameButDeadSlots s t →
    s.view = t.view ∧ ∀ s', step s = .next s' → ∃ t', step t = .next t' ∧ SameButDeadSlots s' t'

/-! ### Invariants -/

/-- Headline: the invariant is kept by every step. It says that memory is in canonical form, that every live slot holds
the address after a `CALL` word in memory, that a `Ready` interpreter stands at the entry point with an empty stack, and
that a stopped state explains its stop. It rests on 10_state.md sections 2, 4, 5 and 8 and 60_exceptions.md section 2,
with the decisions D3 and D5 for `pc` at a stop; the canonical form is the model's (log 2). -/
def Obligations.StepKeepsInvariant : Prop :=
  ∀ s t : State, s.Inv → step s = .next t → t.Inv

/-- The invariant holds right after reset. -/
def Obligations.ResetMeetsInvariant : Prop := State.reset.Inv

/-- A session of a core that has just been constructed meets the session's invariant, and every host operation, allowed
or refused, keeps it (70_reset_and_hazards.md section 3; D18, D20). That the interpreter is `Ready` while startup lasts
rests on the model's choice of what ends startup (log 12). -/
def Obligations.HostOperationsKeepInvariant : Prop :=
  (∀ c : Option Compositor, (Session.begin (State.constructed c)).Inv) ∧
  ∀ (op : HostOp) (h : Session), h.Inv → (hostCall op h).2.Inv

/-- 10_state.md section 2 (C1, D4): where every `CALL` at an even address has an even target, an even `pc` with even
return addresses stays so under every step. -/
def Obligations.EvenTargetsKeepPcEven : Prop :=
  ∀ s t : State, s.mem.EvenCalls → s.EvenPc → step s = .next t → t.EvenPc ∧ t.mem.EvenCalls

/-- Two memories in canonical form that read alike are equal, so that equal memories are equal data. -/
def Obligations.CanonicalMemoriesReadAlikeAreEqual : Prop :=
  ∀ m n : Memory, m.wf → n.wf → (∀ a, m.read a = n.read a) → m = n

/-! ### Runs (30_encoding.md section 3) -/

/-- 60_exceptions.md section 7 and 10_state.md section 5 (D6): `Halted` and `Failed` are terminal. A step there changes
nothing, and of the host's operations only `new_interpreter` changes anything of the interpreter. That `run()` is seen for
a number of turns is the model's choice (log 11). -/
def Obligations.StoppedStatesAreTerminal : Prop :=
  ∀ h : Session, h.core.status.isStopped = true →
    step h.core = .next h.core ∧
    (∀ turns, (hostCall (.run turns) h).1 = .status h.core.status ∧ (hostCall (.run turns) h).2.core = h.core) ∧
    ∀ op, (∀ cfg, op ≠ .newInterpreter cfg) →
      (hostCall op h).2.core = { h.core with compositor := (hostCall op h).2.core.compositor }

/-- 40_control.md section 1: where memory holds only zero bytes, `run()` ends at once with `Halted`, every register,
slot and `sp` as launched, and `pc` two further (D5). That `run()` is seen for a number of turns (log 11) and that startup
is over after it (log 12) are the model's choice. -/
def Obligations.ZeroMemoryHaltsAtOnce : Prop :=
  ∀ (h : Session) (turns : Nat), h.core.Active → h.core.pc.toNat ≤ 0xFFFD → (∀ a, h.core.mem.read a = 0#8) →
    hostCall (.run (turns + 1)) h =
      (.status .halted, { core := { h.core with pc := h.core.pc + 2#16, status := .halted }, startup := false })

/-- 30_encoding.md section 3: once `run()` has returned, more turns give the same report and the same state, and the
report is `Halted` or a fault record. That `run()` is seen for a number of turns (log 11) and that startup is over after
it (log 12) are the model's choice. -/
def Obligations.RunReportsItsEnd : Prop :=
  ∀ (h : Session) (t : State), h.core.RunReturns t →
    (t.status = .halted ∨ ∃ f, t.status = .failed f) ∧
    ∃ enough, ∀ turns, enough ≤ turns → hostCall (.run turns) h = (.status t.status, { core := t, startup := false })

/-- Derived from the rules and stated nowhere in the spec: from every state, `run()` returns. The spec gives
no such guarantee and asks a model to admit an infinite run (D24); `State.loop` assumes no bound, but the four
instructions have none: `pc` only rises inside a call, calls nest at most 16 deep, and a fetch above 0xFFFD faults
(D3). -/
def Obligations.EveryRunReturns : Prop :=
  ∀ s : State, (∃ t, s.RunReturns t) ∧ ¬ s.RunsForever

/-! ### Reset and the host interface (70_reset_and_hazards.md) -/

/-- 10_state.md section 8 and 70_reset_and_hazards.md section 1: what reset leaves. `pc`, `sp`, `status` and a compositor
that exists are the spec's; that its configuration is the reference one is the model's choice (log 4, DESIGN CHOICE). -/
def Obligations.ResetLeavesEntryState : Prop :=
  State.reset.pc = 0x0000#16 ∧ State.reset.sp.val = 0 ∧ State.reset.status = .ready ∧
    State.reset.liveStack = [] ∧ ∃ c, State.reset.compositor = some c ∧ c.cfg = .reference

/-- 70_reset_and_hazards.md sections 1 and 3 (D18, D25): `new_interpreter` resets the interpreter in any state and leaves
the compositor; a configuration that breaks a constraint is refused without effect. That startup neither ends nor begins
again is the model's choice (log 12). The registers and the memory it
leaves are the model's choice (logs 1, 2, 10) and are not stated here. -/
def Obligations.NewInterpreterResets : Prop :=
  ∀ (cfg : CompositorConfig) (h : Session),
    (cfg.Valid → ∃ t, hostCall (.newInterpreter cfg) h = (.ok, { h with core := t }) ∧ t.pc = 0x0000#16 ∧
      t.sp.val = 0 ∧ t.status = .ready ∧ t.compositor = h.core.compositor) ∧
    (¬ cfg.Valid → hostCall (.newInterpreter cfg) h = (.refused .invalidConfiguration, h))

/-- 70_reset_and_hazards.md section 3 (D18, D25): at startup `new_compositor` takes the TileMap it is given, once; it is
refused without effect on an invalid configuration, a second time, or after startup. Which reason a refusal reports where
two hold, `invalidConfiguration` before `compositorExists` before `startupOver`, and what ends startup are the model's
choice (log 12, DESIGN CHOICE). -/
def Obligations.NewCompositorOnce : Prop :=
  ∀ (cfg : CompositorConfig) (tiles0 : TileMap cfg) (h : Session),
    (∀ valid : cfg.Valid, h.core.compositor = none → h.startup = true →
      hostCall (.newCompositor cfg tiles0) h =
        (.ok, { core := { h.core with compositor := some { cfg := cfg, valid := valid, tiles := tiles0 } },
                startup := true })) ∧
    (cfg.Valid → h.core.compositor = none → h.startup = false →
      hostCall (.newCompositor cfg tiles0) h = (.refused .startupOver, h)) ∧
    (cfg.Valid → h.core.compositor ≠ none →
      hostCall (.newCompositor cfg tiles0) h = (.refused .compositorExists, h)) ∧
    (¬ cfg.Valid → hostCall (.newCompositor cfg tiles0) h = (.refused .invalidConfiguration, h))

/-- 70_reset_and_hazards.md sections 2 and 3 (D18): once a `load`, a `set_reg`, a `run` or a `step` has been carried out,
`new_compositor` is refused, whatever the host does after it; a new interpreter does not bring startup back. What ends
startup is the model's choice (log 12, DESIGN CHOICE). -/
def Obligations.StartupEndsForGood : Prop :=
  ∀ (op : HostOp) (ops : List HostOp) (h : Session),
    ((∃ addr byte, op = .load addr byte ∧ h.core.status = .ready) ∨
      (∃ i v, op = .setReg i v ∧ h.core.status = .ready) ∨ (∃ turns, op = .run turns) ∨ op = .step) →
    ∀ (cfg : CompositorConfig) (tiles0 : TileMap cfg),
      ∃ why, hostCall (.newCompositor cfg tiles0) (hostSession ops (hostCall op h).2).2 =
        (.refused why, (hostSession ops (hostCall op h).2).2)

/-- 20_memory.md section 4 (R61, R62): no operation begins before the one before it is complete. While a `run()` has not
returned, the operations after it do nothing and answer nothing; once it has, they go on from the state it left. Two
clauses are the model's choice: a `run()` is seen for a number of turns and answers `notReturned` where they end in
`Running` (log 11, DESIGN CHOICE), and startup is over after it (log 12, DESIGN CHOICE). -/
def Obligations.NothingBeginsDuringRun : Prop :=
  ∀ (turns : Nat) (ops : List HostOp) (h : Session),
    ((∃ t, h.core.start.loop turns = .next t ∧ t.status = .running) →
      (hostSession (.run turns :: ops) h).1 = [.notReturned] ∧
      (hostSession (.run turns :: ops) h).2 = (hostCall (.run turns) h).2) ∧
    ∀ t, h.core.start.loop turns = .next t → t.status.isStopped = true →
      hostSession (.run turns :: ops) h =
        (.status t.status :: (hostSession ops { core := t, startup := false }).1,
          (hostSession ops { core := t, startup := false }).2)

/-- 70_reset_and_hazards.md section 3 (D20, D28): `load` and `set_reg` write one byte and one register while `status` is
`Ready`, and are refused without effect otherwise. In the session, startup is over (the model's choice, log 12). -/
def Obligations.LoadAndSetRegOnlyWhenReady : Prop :=
  ∀ (h : Session) (addr : Addr) (byte : Byte) (i : RegIdx) (v : RegVal), h.core.mem.wf →
    (h.core.status = .ready →
      (∃ t, hostCall (.load addr byte) h = (.ok, { core := t, startup := false }) ∧ t.mem.wf ∧
        t.mem.read addr.toNat = byte ∧ (∀ a, a ≠ addr.toNat → t.mem.read a = h.core.mem.read a) ∧
        t = { h.core with mem := t.mem }) ∧
      (∃ t, hostCall (.setReg i v) h = (.ok, { core := t, startup := false }) ∧ t.readReg i = v ∧
        (∀ r, r ≠ i → t.readReg r = h.core.readReg r) ∧ t = { h.core with regs := t.regs })) ∧
    (h.core.status ≠ .ready →
      hostCall (.load addr byte) h = (.refused .notReady, h) ∧ hostCall (.setReg i v) h = (.refused .notReady, h))

/-- 20_memory.md section 4 (D20): among all host operations, a byte of memory changes only by a `load` of its own
address in `Ready`, or by the reset of the interpreter. -/
def Obligations.OnlyLoadChangesMemory : Prop :=
  ∀ (op : HostOp) (h : Session) (a : Nat), (hostCall op h).2.core.mem.read a ≠ h.core.mem.read a →
    (∃ addr byte, op = .load addr byte ∧ h.core.status = .ready ∧ a = addr.toNat) ∨
      ∃ cfg, op = .newInterpreter cfg

/-- 70_reset_and_hazards.md section 3: `read_state` changes nothing and shows the registers, `pc`, `sp`, the live slots,
oldest first, and `status` with its record. -/
def Obligations.ReadStateShowsLiveSlots : Prop :=
  ∀ h : Session, ∃ view, hostCall .readState h = (.view view, h) ∧
    view.regs = h.core.regs ∧ view.pc = h.core.pc ∧ view.sp = h.core.sp ∧ view.status = h.core.status ∧
    view.liveStack.length = h.core.sp.val ∧
    ∀ (k : Nat) (hk : k < 16), k < h.core.sp.val → view.liveStack[k]? = some h.core.stack[k]

/-- 70_reset_and_hazards.md sections 1 and 2 (D7, D8): whatever `REGS0` and `IMAGE` are, a session of `load` and `set_reg`
from the constructed core ends in that launch state, every operation accepted. So the reset values the model names
(logs 1, 2) restrict no launch. -/
def Obligations.HostReachesEveryLaunchState : Prop :=
  ∀ (regs0 : Vector RegVal 16) (image : Memory) (c : Option Compositor), image.wf →
    ∃ ops : List HostOp,
      (∀ op ∈ ops, (∃ addr byte, op = .load addr byte) ∨ ∃ i v, op = .setReg i v) ∧
      (∀ reply ∈ (hostSession ops (.begin (State.constructed c))).1, reply = .ok) ∧
      (hostSession ops (.begin (State.constructed c))).2.core =
        State.launch regs0 image (State.constructed c).stack c

/-! ### The compositor (45_compositor.md) -/

/-- R120: a default-constructed Pixel is opaque cyan. -/
def Obligations.DefaultPixelIsOpaqueCyan : Prop :=
  Pixel.cyan.ch 0 = 0#8 ∧ Pixel.cyan.ch 1 = 255#8 ∧ Pixel.cyan.ch 2 = 255#8 ∧ Pixel.cyan.ch 3 = 255#8

/-- 45_compositor.md section 1: an all-default Sprite holds default Pixels, and a drawn TileMap holds, channel by channel,
the bytes drawn. -/
def Obligations.ConstructionFillsEveryPixel : Prop :=
  (∀ (cfg : CompositorConfig) (row col : Nat) (hr : row < cfg.spriteHeight) (hc : col < cfg.spriteWidth),
    (Sprite.cyan cfg)[row][col] = Pixel.cyan) ∧
  ∀ (cfg : CompositorConfig) (byte : Nat → Nat → Nat → Nat → Nat → Byte) (trow tcol row col : Nat)
    (ht : trow < cfg.mapHeight) (htc : tcol < cfg.mapWidth) (hr : row < cfg.spriteHeight)
    (hc : col < cfg.spriteWidth) (ch : Fin 4),
    (TileMap.drawn cfg byte)[trow][tcol][row][col].ch ch = byte trow tcol row col ch.val

/-- R125: the index of a pixel, in both forms the rule writes. -/
def Obligations.PixelIndexFormula : Prop :=
  ∀ (c : CompositorConfig) (i j k l : Nat),
    c.pixelIndex i j k l =
      i * c.spriteHeight * c.screenWidth * c.spriteWidth + j * c.screenWidth * c.spriteWidth + k * c.spriteWidth + l ∧
    c.pixelIndex i j k l = (i * c.spriteHeight + j) * (c.screenWidth * c.spriteWidth) + (k * c.spriteWidth + l)

/-- 45_compositor.md section 2 (R126): `idx` is a bijection from the index ranges onto `[0, N)`, with the inverse given
there. -/
def Obligations.PixelIndexIsBijection : Prop :=
  ∀ c : CompositorConfig, c.Valid →
    (∀ i j k l, i < c.screenHeight → j < c.spriteHeight → k < c.screenWidth → l < c.spriteWidth →
      c.pixelIndex i j k l < c.pixelCount ∧ c.placeOf (c.pixelIndex i j k l) = ⟨i, j, k, l⟩) ∧
    ∀ p, p < c.pixelCount →
      (c.placeOf p).tileRow < c.screenHeight ∧ (c.placeOf p).rowInTile < c.spriteHeight ∧
      (c.placeOf p).tileCol < c.screenWidth ∧ (c.placeOf p).colInTile < c.spriteWidth ∧
      c.pixelIndex (c.placeOf p).tileRow (c.placeOf p).rowInTile (c.placeOf p).tileCol (c.placeOf p).colInTile = p

/-- 45_compositor.md sections 2 and 3 (R127 to R130; origin of the window: D14): the four nested loops give exactly `N`
pixels, and the pixel at `idx(i, j, k, l)` is `tiles[i][k][j][l]`: the raster order of the screen. -/
def Obligations.FlattenIsRasterOrder : Prop :=
  ∀ c : Compositor,
    c.flatten.length = c.cfg.screenHeight * c.cfg.spriteHeight * c.cfg.screenWidth * c.cfg.spriteWidth ∧
    ∀ i j k l, i < c.cfg.screenHeight → j < c.cfg.spriteHeight → k < c.cfg.screenWidth → l < c.cfg.spriteWidth →
      ∃ tileRow sprite pixels p, c.tiles[i]? = some tileRow ∧ tileRow[k]? = some sprite ∧ sprite[j]? = some pixels ∧
        pixels[l]? = some p ∧ c.flatten[c.cfg.pixelIndex i j k l]? = some p

/-- 45_compositor.md section 4 (R135; origin of the window: D14; in any run state: D27): with a destination of `4 * N` bytes, `draw` succeeds, changes no state, keeps
the length, and leaves `dest[4 * idx + c] = tiles[i][k][j][l].ch[c]` at every place. -/
def Obligations.DrawCopiesEveryChannel : Prop :=
  ∀ (h : Session) (c : Compositor) (dest : List Byte), h.core.compositor = some c →
    dest.length = 4 * c.cfg.pixelCount →
    ∃ out, hostCall (.draw dest) h = (.drawn (.ok out), h) ∧ out.length = dest.length ∧
      ∀ i j k l, i < c.cfg.screenHeight → j < c.cfg.spriteHeight → k < c.cfg.screenWidth → l < c.cfg.spriteWidth →
        ∃ tileRow sprite pixels p, c.tiles[i]? = some tileRow ∧ tileRow[k]? = some sprite ∧
          sprite[j]? = some pixels ∧ pixels[l]? = some p ∧
          ∀ ch : Fin 4, out[4 * c.cfg.pixelIndex i j k l + ch.val]? = some (p.ch ch)

/-- 45_compositor.md section 4 and 60_exceptions.md section 2 (D15, D27): with any other length, `draw` returns
`BufferSizeMismatch(4 * N, L)`, leaves the destination and the state as they were, and the next `draw` with a buffer of
the right length succeeds. Before `new_compositor` it is refused. -/
def Obligations.DrawRejectsWrongLength : Prop :=
  ∀ (h : Session) (dest : List Byte),
    (h.core.compositor = none → hostCall (.draw dest) h = (.refused .noCompositor, h)) ∧
    ∀ c, h.core.compositor = some c → dest.length ≠ 4 * c.cfg.pixelCount →
      hostCall (.draw dest) h =
        (.drawn (.failed (.bufferSizeMismatch (4 * c.cfg.pixelCount) dest.length) dest), h) ∧
      ∀ good : List Byte, good.length = 4 * c.cfg.pixelCount →
        ∃ out, hostSession [.draw dest, .draw good] h =
          ([.drawn (.failed (.bufferSizeMismatch (4 * c.cfg.pixelCount) dest.length) dest), .drawn (.ok out)], h)

/-- 45_compositor.md section 4: the bytes of the destination before the call are never read. -/
def Obligations.DrawIgnoresOldDestination : Prop :=
  ∀ (c : Compositor) (dest old : List Byte), dest.length = 4 * c.cfg.pixelCount → old.length = 4 * c.cfg.pixelCount →
    c.draw dest = c.draw old

/-- 10_state.md section 7 and 45_compositor.md section 3: nothing writes the TileMap after construction. After any host
session the compositor is the one constructed, so every `flatten` of a core gives one sequence. -/
def Obligations.TileMapNeverChanges : Prop :=
  ∀ (ops : List HostOp) (h : Session) (c : Compositor), h.core.compositor = some c →
    (hostSession ops h).2.core.compositor = some c
end

