-- ==== Sys2Proof/Laws/Compositor.lean ====
section
/-! SUPPORT. What the copy of `draw` does, and how a list built in equal blocks is indexed. -/

namespace Sys2Proof.Machine

theorem configuration_wellFormed_iff (c : CompositorConfig) : c.wellFormed = true ↔ c.Valid :=
  decide_eq_true_iff

/-- The copy keeps the destination's length (R135). -/
@[simp] theorem copyPixels_length (pixels : List Pixel) (dest : List Byte) :
    (copyPixels pixels dest).length = dest.length := by
  fun_induction copyPixels pixels dest with
  | case1 p ps _ _ _ _ dest ih => simp [ih]
  | case2 => rfl

/-- The copy puts channel `ch` of pixel `n` at byte `4 * n + ch` (R135). -/
theorem copyPixels_getElem? {pixels : List Pixel} {dest : List Byte} (hlen : dest.length = 4 * pixels.length)
    {n : Nat} {p : Pixel} (hp : pixels[n]? = some p) (ch : Fin 4) :
    (copyPixels pixels dest)[4 * n + ch.val]? = some (p.ch ch) := by
  induction pixels generalizing dest n with
  | nil => simp at hp
  | cons q pixels ih =>
    match dest with
    | a :: b :: c :: d :: dest =>
      cases n with
      | zero =>
        simp only [List.getElem?_cons_zero, Option.some.injEq] at hp
        subst hp
        fin_cases ch <;> rfl
      | succ n =>
        simp only [List.getElem?_cons_succ] at hp
        simp only [List.length_cons] at hlen
        have := ih (dest := dest) (by omega) hp
        rw [show 4 * (n + 1) + ch.val = 4 * n + ch.val + 1 + 1 + 1 + 1 by omega]
        simpa [copyPixels] using this
    | [] => simp at hlen
    | [_] => simp only [List.length_cons, List.length_nil] at hlen; omega
    | [_, _] => simp only [List.length_cons, List.length_nil] at hlen; omega
    | [_, _, _] => simp only [List.length_cons, List.length_nil] at hlen; omega

/-- A list made of `n` blocks of `m` entries has `n * m` of them, and entry `i * m + r` is entry `r` of block `i`. -/
theorem blocks_getElem? {α : Type} {n m : Nat} {f : Fin n → List α} (hf : ∀ i, (f i).length = m) :
    ((List.finRange n).flatMap f).length = n * m ∧
      ∀ (i : Nat) (hi : i < n) (r : Nat), r < m → ((List.finRange n).flatMap f)[i * m + r]? = (f ⟨i, hi⟩)[r]? := by
  induction n with
  | zero => simp
  | succ n ih =>
    obtain ⟨length, entry⟩ := ih (f := fun i => f i.succ) (fun i => hf _)
    have split : (List.finRange (n + 1)).flatMap f = f 0 ++ (List.finRange n).flatMap (fun i => f i.succ) := by
      rw [List.finRange_succ]; simp [List.flatMap_map]
    rw [split]
    refine ⟨by rw [List.length_append, length, hf]; ring, fun i hi r hr => ?_⟩
    cases i with
    | zero => simpa using List.getElem?_append_left (by rw [hf]; exact hr)
    | succ i =>
      have block : (i + 1) * m + r = m + (i * m + r) := by ring
      rw [block, List.getElem?_append_right (by rw [hf]; omega), hf, Nat.add_sub_cancel_left]
      exact entry i (by omega) r hr

end Sys2Proof.Machine
end

