-- ==== Sys2Proof/Laws/Decode.lean ====
section
/-! SUPPORT. The encodings and the fields as numbers (R71, R84), so that facts about words are facts of arithmetic. -/

namespace Sys2Proof

theorem toNat_append_eq {n m : Nat} (a : BitVec n) (b : BitVec m) : (a ++ b).toNat = a.toNat * 2 ^ m + b.toNat := by
  rw [BitVec.toNat_append, ← Nat.shiftLeft_add_eq_or_of_lt b.isLt, Nat.shiftLeft_eq]

theorem wordOfBytes_toNat (hi lo : Byte) : (wordOfBytes hi lo).toNat = hi.toNat * 256 + lo.toNat :=
  toNat_append_eq hi lo

@[simp] theorem fieldC_toNat (w : Word) : (fieldC w).toNat = w.toNat / 4096 := by
  have := w.isLt
  simp only [fieldC, BitVec.extractLsb'_toNat, Nat.shiftRight_eq_div_pow]
  omega

@[simp] theorem fieldX_toNat (w : Word) : (fieldX w).toNat = w.toNat / 256 % 16 := by
  simp [fieldX, Nat.shiftRight_eq_div_pow]

@[simp] theorem fieldY_toNat (w : Word) : (fieldY w).toNat = w.toNat / 16 % 16 := by
  simp [fieldY, Nat.shiftRight_eq_div_pow]

@[simp] theorem fieldD_toNat (w : Word) : (fieldD w).toNat = w.toNat % 16 := by
  simp [fieldD]

@[simp] theorem fieldNNN_toNat (w : Word) : (fieldNNN w).toNat = w.toNat % 4096 := by
  simp [fieldNNN]

@[simp] theorem hiByte_toNat (w : Word) : (hiByte w).toNat = w.toNat / 256 := by
  have := w.isLt
  simp only [hiByte, BitVec.extractLsb'_toNat, Nat.shiftRight_eq_div_pow]
  omega

@[simp] theorem loByte_toNat (w : Word) : (loByte w).toNat = w.toNat % 256 := by
  simp [loByte]

@[simp] theorem encode_halt_toNat : (encode .halt).toNat = 0 := rfl

@[simp] theorem encode_ret_toNat : (encode .ret).toNat = 0x00EE := rfl

@[simp] theorem encode_call_toNat (nnn : Target) : (encode (.call nnn)).toNat = 0x2000 + nnn.toNat :=
  toNat_append_eq 0x2#4 nnn

@[simp] theorem encode_add_toNat (x y : RegIdx) :
    (encode (.add x y)).toNat = 0x8004 + x.toNat * 0x100 + y.toNat * 0x10 := by
  have h : (encode (.add x y)).toNat = ((0x8 * 2 ^ 4 + x.toNat) * 2 ^ 4 + y.toNat) * 2 ^ 4 + 4 := by
    simp only [encode, toNat_append_eq]
    rfl
  omega

/-- What `decode` answers, by its four tests (R75). -/
theorem decode_cases (w : Word) :
    (w.toNat = 0 ∧ decode w = .instr .halt) ∨ (w.toNat = 0x00EE ∧ decode w = .instr .ret) ∨
    (w.toNat / 4096 = 2 ∧ decode w = .instr (.call (fieldNNN w))) ∨
    (w.toNat / 4096 = 8 ∧ w.toNat % 16 = 4 ∧ decode w = .instr (.add (fieldX w) (fieldY w))) ∨
    (w.toNat ≠ 0 ∧ w.toNat ≠ 0x00EE ∧ w.toNat / 4096 ≠ 2 ∧ (w.toNat / 4096 = 8 → w.toNat % 16 ≠ 4) ∧
      decode w = .unsupported w) := by
  simp only [decode, BitVec.toNat_eq, fieldC_toNat, fieldD_toNat, BitVec.toNat_ofNat]
  norm_num
  split_ifs <;> simp_all

end Sys2Proof
end

