-- ==== Sys2Proof/Laws/State.lean ====
section
/-! SUPPORT. One lemma per field per update of the state, each true by rfl, so that no later proof unfolds a record
update. -/

namespace Sys2Proof.Machine

/-! ### The figures of R9 agree, and bound what they measure -/

/-- Every address names a byte, and every byte has an address (R9, R50). -/
theorem Config.memSize_eq : Config.memSize = 2 ^ Config.awidth := rfl

/-- The register fields name exactly the registers of the file (R21). -/
theorem Config.nregs_eq : Config.nregs = 2 ^ 4 := rfl

/-- An instruction word is the bytes that a fetch reads (R70). -/
theorem Config.ilen_eq : 8 * Config.ilen = 16 := rfl

/-- A slot holds every address without loss (R24). -/
theorem Config.stackWidth_eq : Config.stackWidth = Config.awidth := rfl

/-- An address as a number, for `omega`. -/
theorem addr_lt (a : Addr) : a.toNat < 65536 := a.isLt

/-- A slot's value as a number, for `omega`. -/
theorem slot_lt (v : Slot) : v.toNat < 65536 := v.isLt

/-- A register's value as a number, for `omega`. -/
theorem regVal_lt (v : RegVal) : v.toNat < 256 := v.isLt

/-- A slot holds the program counter as it is (R24, R95). -/
@[simp] theorem slotOfPc_eq (pc : Addr) : slotOfPc pc = pc := BitVec.setWidth_eq pc

/-- The program counter is what the slot holds (R24, R100). -/
@[simp] theorem pcOfSlot_eq (v : Slot) : pcOfSlot v = v := BitVec.setWidth_eq v

/-! ### writeReg -/

@[simp] theorem State.writeReg_regs (s : State) (i : RegIdx) (v : RegVal) :
    (s.writeReg i v).regs = s.regs.set i.toNat v (regIdx_lt i) := rfl
@[simp] theorem State.writeReg_pc (s : State) (i : RegIdx) (v : RegVal) : (s.writeReg i v).pc = s.pc := rfl
@[simp] theorem State.writeReg_sp (s : State) (i : RegIdx) (v : RegVal) : (s.writeReg i v).sp = s.sp := rfl
@[simp] theorem State.writeReg_stack (s : State) (i : RegIdx) (v : RegVal) : (s.writeReg i v).stack = s.stack := rfl
@[simp] theorem State.writeReg_status (s : State) (i : RegIdx) (v : RegVal) : (s.writeReg i v).status = s.status := rfl
@[simp] theorem State.writeReg_mem (s : State) (i : RegIdx) (v : RegVal) : (s.writeReg i v).mem = s.mem := rfl
@[simp] theorem State.writeReg_compositor (s : State) (i : RegIdx) (v : RegVal) :
    (s.writeReg i v).compositor = s.compositor := rfl

/-! ### setCarry -/

@[simp] theorem State.setCarry_regs (s : State) (v : RegVal) :
    (s.setCarry v).regs = s.regs.set Config.flagReg.toNat v (regIdx_lt _) := rfl
@[simp] theorem State.setCarry_pc (s : State) (v : RegVal) : (s.setCarry v).pc = s.pc := rfl
@[simp] theorem State.setCarry_sp (s : State) (v : RegVal) : (s.setCarry v).sp = s.sp := rfl
@[simp] theorem State.setCarry_stack (s : State) (v : RegVal) : (s.setCarry v).stack = s.stack := rfl
@[simp] theorem State.setCarry_status (s : State) (v : RegVal) : (s.setCarry v).status = s.status := rfl
@[simp] theorem State.setCarry_mem (s : State) (v : RegVal) : (s.setCarry v).mem = s.mem := rfl
@[simp] theorem State.setCarry_compositor (s : State) (v : RegVal) : (s.setCarry v).compositor = s.compositor := rfl

/-! ### setPc -/

@[simp] theorem State.setPc_regs (s : State) (target : Addr) : (s.setPc target).regs = s.regs := rfl
@[simp] theorem State.setPc_pc (s : State) (target : Addr) : (s.setPc target).pc = target := rfl
@[simp] theorem State.setPc_sp (s : State) (target : Addr) : (s.setPc target).sp = s.sp := rfl
@[simp] theorem State.setPc_stack (s : State) (target : Addr) : (s.setPc target).stack = s.stack := rfl
@[simp] theorem State.setPc_status (s : State) (target : Addr) : (s.setPc target).status = s.status := rfl
@[simp] theorem State.setPc_mem (s : State) (target : Addr) : (s.setPc target).mem = s.mem := rfl
@[simp] theorem State.setPc_compositor (s : State) (target : Addr) :
    (s.setPc target).compositor = s.compositor := rfl

/-! ### advancePc -/

@[simp] theorem State.advancePc_regs (s : State) : (s.advancePc).regs = s.regs := rfl
@[simp] theorem State.advancePc_pc (s : State) : (s.advancePc).pc = s.pc + 2#16 := rfl
@[simp] theorem State.advancePc_sp (s : State) : (s.advancePc).sp = s.sp := rfl
@[simp] theorem State.advancePc_stack (s : State) : (s.advancePc).stack = s.stack := rfl
@[simp] theorem State.advancePc_status (s : State) : (s.advancePc).status = s.status := rfl
@[simp] theorem State.advancePc_mem (s : State) : (s.advancePc).mem = s.mem := rfl
@[simp] theorem State.advancePc_compositor (s : State) : (s.advancePc).compositor = s.compositor := rfl

/-- The fetch address, two below `pc` (R25). -/
@[simp] theorem State.fetchedFrom_eq (s : State) : s.fetchedFrom = s.pc - 2#16 := rfl

/-! ### setStatus -/

@[simp] theorem State.setStatus_regs (s : State) (status : RunState) : (s.setStatus status).regs = s.regs := rfl
@[simp] theorem State.setStatus_pc (s : State) (status : RunState) : (s.setStatus status).pc = s.pc := rfl
@[simp] theorem State.setStatus_sp (s : State) (status : RunState) : (s.setStatus status).sp = s.sp := rfl
@[simp] theorem State.setStatus_stack (s : State) (status : RunState) : (s.setStatus status).stack = s.stack := rfl
@[simp] theorem State.setStatus_status (s : State) (status : RunState) : (s.setStatus status).status = status := rfl
@[simp] theorem State.setStatus_mem (s : State) (status : RunState) : (s.setStatus status).mem = s.mem := rfl
@[simp] theorem State.setStatus_compositor (s : State) (status : RunState) :
    (s.setStatus status).compositor = s.compositor := rfl

/-! ### halt -/

@[simp] theorem State.halt_regs (s : State) : (s.halt).regs = s.regs := rfl
@[simp] theorem State.halt_pc (s : State) : (s.halt).pc = s.pc := rfl
@[simp] theorem State.halt_sp (s : State) : (s.halt).sp = s.sp := rfl
@[simp] theorem State.halt_stack (s : State) : (s.halt).stack = s.stack := rfl
@[simp] theorem State.halt_status (s : State) : (s.halt).status = .halted := rfl
@[simp] theorem State.halt_mem (s : State) : (s.halt).mem = s.mem := rfl
@[simp] theorem State.halt_compositor (s : State) : (s.halt).compositor = s.compositor := rfl

/-! ### raise -/

@[simp] theorem State.raise_regs (s : State) (kind : FaultKind) (opcode : Option Word) (faultPc : Addr) :
    (s.raise kind opcode faultPc).regs = s.regs := rfl
@[simp] theorem State.raise_pc (s : State) (kind : FaultKind) (opcode : Option Word) (faultPc : Addr) :
    (s.raise kind opcode faultPc).pc = s.pc := rfl
@[simp] theorem State.raise_sp (s : State) (kind : FaultKind) (opcode : Option Word) (faultPc : Addr) :
    (s.raise kind opcode faultPc).sp = s.sp := rfl
@[simp] theorem State.raise_stack (s : State) (kind : FaultKind) (opcode : Option Word) (faultPc : Addr) :
    (s.raise kind opcode faultPc).stack = s.stack := rfl
@[simp] theorem State.raise_status (s : State) (kind : FaultKind) (opcode : Option Word) (faultPc : Addr) :
    (s.raise kind opcode faultPc).status = .failed { kind := kind, opcode := opcode, faultPc := faultPc, depth := s.sp } := rfl
@[simp] theorem State.raise_mem (s : State) (kind : FaultKind) (opcode : Option Word) (faultPc : Addr) :
    (s.raise kind opcode faultPc).mem = s.mem := rfl
@[simp] theorem State.raise_compositor (s : State) (kind : FaultKind) (opcode : Option Word) (faultPc : Addr) :
    (s.raise kind opcode faultPc).compositor = s.compositor := rfl

/-! ### raiseIn -/

@[simp] theorem State.raiseIn_regs (s : State) (i : Instr) (kind : FaultKind) :
    (s.raiseIn i kind).regs = s.regs := rfl
@[simp] theorem State.raiseIn_pc (s : State) (i : Instr) (kind : FaultKind) : (s.raiseIn i kind).pc = s.pc := rfl
@[simp] theorem State.raiseIn_sp (s : State) (i : Instr) (kind : FaultKind) : (s.raiseIn i kind).sp = s.sp := rfl
@[simp] theorem State.raiseIn_stack (s : State) (i : Instr) (kind : FaultKind) :
    (s.raiseIn i kind).stack = s.stack := rfl
@[simp] theorem State.raiseIn_status (s : State) (i : Instr) (kind : FaultKind) :
    (s.raiseIn i kind).status = .failed { kind := kind, opcode := some (encode i), faultPc := s.fetchedFrom, depth := s.sp } := rfl
@[simp] theorem State.raiseIn_mem (s : State) (i : Instr) (kind : FaultKind) : (s.raiseIn i kind).mem = s.mem := rfl
@[simp] theorem State.raiseIn_compositor (s : State) (i : Instr) (kind : FaultKind) :
    (s.raiseIn i kind).compositor = s.compositor := rfl

/-! ### memWrite -/

@[simp] theorem State.memWrite_regs (s : State) (addr : Addr) (v : Byte) : (s.memWrite addr v).regs = s.regs := rfl
@[simp] theorem State.memWrite_pc (s : State) (addr : Addr) (v : Byte) : (s.memWrite addr v).pc = s.pc := rfl
@[simp] theorem State.memWrite_sp (s : State) (addr : Addr) (v : Byte) : (s.memWrite addr v).sp = s.sp := rfl
@[simp] theorem State.memWrite_stack (s : State) (addr : Addr) (v : Byte) :
    (s.memWrite addr v).stack = s.stack := rfl
@[simp] theorem State.memWrite_status (s : State) (addr : Addr) (v : Byte) :
    (s.memWrite addr v).status = s.status := rfl
@[simp] theorem State.memWrite_mem (s : State) (addr : Addr) (v : Byte) :
    (s.memWrite addr v).mem = s.mem.write addr.toNat v := rfl
@[simp] theorem State.memWrite_compositor (s : State) (addr : Addr) (v : Byte) :
    (s.memWrite addr v).compositor = s.compositor := rfl

/-! ### start and placeAtPc -/

@[simp] theorem State.start_regs (s : State) : s.start.regs = s.regs := by
  unfold State.start; split <;> rfl
@[simp] theorem State.start_pc (s : State) : s.start.pc = s.pc := by
  unfold State.start; split <;> rfl
@[simp] theorem State.start_sp (s : State) : s.start.sp = s.sp := by
  unfold State.start; split <;> rfl
@[simp] theorem State.start_stack (s : State) : s.start.stack = s.stack := by
  unfold State.start; split <;> rfl
@[simp] theorem State.start_mem (s : State) : s.start.mem = s.mem := by
  unfold State.start; split <;> rfl
@[simp] theorem State.start_compositor (s : State) : s.start.compositor = s.compositor := by
  unfold State.start; split <;> rfl

theorem State.start_of_ready {s : State} (h : s.status = .ready) : s.start = s.setStatus .running := by
  simp [State.start, h]

theorem State.start_of_running {s : State} (h : s.status = .running) : s.start = s := by
  simp [State.start, h]

theorem State.start_of_stopped {s : State} (h : s.status.isStopped = true) : s.start = s := by
  unfold State.start
  split <;> simp_all [RunState.isStopped]

/-- From a state that a step acts in, `start` gives the running one (R81, R185). -/
theorem State.start_of_active {s : State} (h : s.Active) : s.start = s.setStatus .running := by
  rcases h with h | h
  · exact State.start_of_ready h
  · rw [State.start_of_running h]
    cases s
    simp_all [State.setStatus]

theorem State.Active.not_stopped {s : State} (h : s.Active) : s.status.isStopped = false := by
  rcases h with h | h <;> simp [h, RunState.isStopped]

theorem State.active_or_stopped (s : State) : s.Active ∨ s.status.isStopped = true := by
  unfold State.Active
  cases s.status <;> simp [RunState.isStopped]

@[simp] theorem State.placeAtPc_regs (s : State) (w : Word) : (s.placeAtPc w).regs = s.regs := by
  unfold State.placeAtPc; split <;> rfl
@[simp] theorem State.placeAtPc_pc (s : State) (w : Word) : (s.placeAtPc w).pc = s.pc := by
  unfold State.placeAtPc; split <;> rfl
@[simp] theorem State.placeAtPc_sp (s : State) (w : Word) : (s.placeAtPc w).sp = s.sp := by
  unfold State.placeAtPc; split <;> rfl
@[simp] theorem State.placeAtPc_stack (s : State) (w : Word) : (s.placeAtPc w).stack = s.stack := by
  unfold State.placeAtPc; split <;> rfl
@[simp] theorem State.placeAtPc_status (s : State) (w : Word) : (s.placeAtPc w).status = s.status := by
  unfold State.placeAtPc; split <;> rfl
@[simp] theorem State.placeAtPc_compositor (s : State) (w : Word) : (s.placeAtPc w).compositor = s.compositor := by
  unfold State.placeAtPc; split <;> rfl

/-! ### Registers: read after write (R20, R22) -/

@[simp] theorem State.readReg_writeReg_same (s : State) (i : RegIdx) (v : RegVal) : (s.writeReg i v).readReg i = v := by
  simp [State.readReg, State.writeReg]

theorem State.readReg_writeReg_ne (s : State) {i j : RegIdx} (v : RegVal) (h : j ≠ i) :
    (s.writeReg i v).readReg j = s.readReg j := by
  have : i.toNat ≠ j.toNat := fun e => h (BitVec.eq_of_toNat_eq e.symm)
  simp [State.readReg, State.writeReg, Vector.getElem_set_ne, this]

/-- A register read sees the register file alone. -/
theorem State.readReg_congr {s t : State} (h : s.regs = t.regs) (i : RegIdx) : s.readReg i = t.readReg i := by
  simp [State.readReg, h]

end Sys2Proof.Machine
end

