-- ==== Sys2Proof/Laws/Memory.lean ====
section
/-! SUPPORT. Memory: read after write, and that every memory operation keeps the canonical form. -/

namespace Sys2Proof.Machine

@[simp] theorem Memory.read_nil (a : Nat) : Memory.read [] a = Config.memFill := rfl

theorem Memory.read_cons (b : Nat) (u : Byte) (m : Memory) (a : Nat) :
    Memory.read ((b, u) :: m) a = if b = a then u else Memory.read m a := rfl

/-- An address below every listed one, or simply not listed, reads as the fill. -/
theorem Memory.read_eq_fill_of_not_mem {m : Memory} {a : Nat} (h : ∀ c ∈ m, c.1 ≠ a) :
    m.read a = Config.memFill := by
  induction m with
  | nil => rfl
  | cons c m ih =>
    obtain ⟨b, u⟩ := c
    simp only [List.mem_cons, forall_eq_or_imp] at h
    rw [Memory.read_cons, if_neg h.1]
    exact ih h.2

theorem Memory.read_consCell {m : Memory} {a : Nat} {v : Byte} (h : m.read a = Config.memFill) (b : Nat) :
    (Memory.consCell a v m).read b = if b = a then v else m.read b := by
  unfold Memory.consCell
  split
  · next hv =>
    split
    · next hb => rw [hb, h, hv]
    · rfl
  · rw [Memory.read_cons]
    by_cases hb : b = a
    · simp [hb]
    · simp [hb, Ne.symm hb]

theorem Memory.wf_nil : Memory.wf ([] : Memory) := by simp [Memory.wf]

theorem Memory.wf_cons {c : Host.Cell} {m : Memory} :
    Memory.wf (c :: m) ↔ (∀ d ∈ m, c.1 < d.1) ∧ (c.1 < Config.memSize ∧ c.2 ≠ Config.memFill) ∧ m.wf := by
  simp only [Memory.wf, List.pairwise_cons, List.mem_cons, forall_eq_or_imp]
  tauto

/-- Read after write (R50, R56): the byte written at the address written, every other byte as before. -/
theorem Memory.read_write {m : Memory} (hm : m.wf) (a : Nat) (v : Byte) (b : Nat) :
    (m.write a v).read b = if b = a then v else m.read b := by
  induction m with
  | nil => exact Memory.read_consCell rfl b
  | cons c m ih =>
    obtain ⟨k, u⟩ := c
    rw [Memory.wf_cons] at hm
    obtain ⟨hlt, -, hm⟩ := hm
    have tail_fill : ∀ x, x ≤ k → Memory.read m x = Config.memFill := fun x hx =>
      Memory.read_eq_fill_of_not_mem fun d hd => Nat.ne_of_gt (Nat.lt_of_le_of_lt hx (hlt d hd))
    unfold Memory.write
    split
    · next hk =>
      rw [Memory.read_cons, Memory.read_cons, ih hm]
      by_cases hb : b = a
      · simp [hb, Nat.ne_of_lt hk]
      · simp [hb]
    · next hk =>
      split
      · next he =>
        subst he
        rw [Memory.read_consCell (tail_fill k (Nat.le_refl k)), Memory.read_cons]
        by_cases hb : b = k
        · simp [hb]
        · simp [hb, Ne.symm hb]
      · next he =>
        rw [Memory.read_consCell]
        rw [Memory.read_cons, if_neg he]
        exact tail_fill a (by omega)

theorem Memory.read_write_same {m : Memory} (hm : m.wf) (a : Nat) (v : Byte) : (m.write a v).read a = v := by
  simp [Memory.read_write hm]

/-- Bytes outside the one written read as before, whatever the memory. -/
theorem Memory.read_write_ne (m : Memory) {a b : Nat} (v : Byte) (h : b ≠ a) : (m.write a v).read b = m.read b := by
  have cons : ∀ m : Memory, (Memory.consCell a v m).read b = m.read b := fun m => by
    unfold Memory.consCell
    split
    · rfl
    · rw [Memory.read_cons, if_neg (Ne.symm h)]
  induction m with
  | nil => exact cons []
  | cons c m ih =>
    obtain ⟨k, u⟩ := c
    unfold Memory.write
    split
    · rw [Memory.read_cons, Memory.read_cons, ih]
    · split
      · next he => subst he; rw [cons, Memory.read_cons, if_neg (Ne.symm h)]
      · exact cons _

/-- A write lists no address but the one written and those listed before. -/
theorem Memory.mem_write {m : Memory} {a : Nat} {v : Byte} {c : Host.Cell} (h : c ∈ m.write a v) :
    (c = (a, v) ∧ v ≠ Config.memFill) ∨ c ∈ m := by
  have cons : ∀ m : Memory, c ∈ Memory.consCell a v m → (c = (a, v) ∧ v ≠ Config.memFill) ∨ c ∈ m := fun m hc => by
    unfold Memory.consCell at hc
    split at hc
    · exact .inr hc
    · next hv => exact (List.mem_cons.mp hc).imp (⟨·, hv⟩) id
  induction m with
  | nil => exact cons [] h
  | cons d m ih =>
    obtain ⟨k, u⟩ := d
    unfold Memory.write at h
    split at h
    · rcases List.mem_cons.mp h with h | h
      · exact .inr (by simp [h])
      · exact (ih h).imp id (List.mem_cons_of_mem _)
    · split at h
      · exact (cons m h).imp id (List.mem_cons_of_mem _)
      · exact cons _ h

/-- A write inside the address space keeps the canonical form. -/
theorem Memory.write_wf {m : Memory} (hm : m.wf) {a : Nat} (ha : a < Config.memSize) (v : Byte) :
    (m.write a v).wf := by
  have cons : ∀ m : Memory, m.wf → (∀ d ∈ m, a < d.1) → (Memory.consCell a v m).wf := fun m hm hd => by
    unfold Memory.consCell
    split
    · exact hm
    · next hv => exact Memory.wf_cons.mpr ⟨hd, ⟨ha, hv⟩, hm⟩
  induction m with
  | nil => exact cons [] hm (by simp)
  | cons c m ih =>
    obtain ⟨k, u⟩ := c
    have whole := hm
    rw [Memory.wf_cons] at hm
    obtain ⟨hlt, hk, hm⟩ := hm
    unfold Memory.write
    split
    · next hka =>
      refine Memory.wf_cons.mpr ⟨fun d hd => ?_, hk, ih hm⟩
      rcases Memory.mem_write hd with ⟨rfl, -⟩ | hd
      · exact hka
      · exact hlt d hd
    · split
      · next he => subst he; exact cons m hm hlt
      · next hka he =>
        refine cons _ whole fun d hd => ?_
        have hak : a < k := by omega
        rcases List.mem_cons.mp hd with rfl | hd
        · exact hak
        · exact Nat.lt_trans hak (hlt d hd)

/-- A word write that ends inside the address space keeps the canonical form. -/
theorem Memory.writeWord_wf {m : Memory} (hm : m.wf) {a : Nat} (ha : a + 1 < Config.memSize) (w : Word) :
    (m.writeWord a w).wf :=
  Memory.write_wf (Memory.write_wf hm (Nat.lt_of_succ_lt ha) _) ha _

theorem State.memWrite_wf {s : State} (hm : s.mem.wf) (addr : Addr) (v : Byte) : (s.memWrite addr v).mem.wf :=
  Memory.write_wf hm addr.isLt v

theorem State.placeAtPc_wf {s : State} (hm : s.mem.wf) (w : Word) : (s.placeAtPc w).mem.wf := by
  unfold State.placeAtPc
  split
  · next h => exact Memory.writeWord_wf hm (by simp only [Config.fetchLimit, Config.memSize, Config.ilen] at *; omega) w
  · exact hm

/-- Two bytes of a word put together again (R52). -/
@[simp] theorem wordOfBytes_hiByte_loByte (w : Word) : wordOfBytes (hiByte w) (loByte w) = w := by
  apply BitVec.eq_of_getLsbD_eq
  intro i hi
  simp only [wordOfBytes, hiByte, loByte, BitVec.getLsbD_append, BitVec.getLsbD_extractLsb']
  split
  · simp_all
  · have : i - 8 < 8 := by omega
    simp only [this, decide_true, Bool.true_and]
    congr 1
    omega

/-- A fetch reads the big-endian pair at its address (R52). -/
theorem Memory.readWord_eq (m : Memory) (addr : Addr) :
    m.readWord addr = wordOfBytes (m.read addr.toNat) (m.read (addr.toNat + 1)) := by
  refine BitVec.eq_of_toNat_eq ?_
  have := (wordOfBytes (m.read addr.toNat) (m.read (addr.toNat + 1))).isLt
  rw [wordOfBytes_toNat] at this ⊢
  simp only [Memory.readWord, Memory.readBytes, bigEndian, List.foldl, BitVec.toNat_ofNat]
  omega

/-- A word written is the word fetched there (R54). -/
theorem Memory.readWord_writeWord {m : Memory} (hm : m.wf) {a : Addr} (ha : a.toNat + 1 < Config.memSize) (w : Word) :
    (m.writeWord a.toNat w).readWord a = w := by
  have h1 : (m.write a.toNat (hiByte w)).wf := Memory.write_wf hm (Nat.lt_of_succ_lt ha) _
  simp only [Memory.readWord_eq, Memory.writeWord]
  rw [Memory.read_write_ne _ _ (by omega), Memory.read_write_same hm, Memory.read_write_same h1,
    wordOfBytes_hiByte_loByte]

/-- The word placed at `pc` is the word the next step fetches. -/
theorem State.placeAtPc_fetched {s : State} (hm : s.mem.wf) (hpc : s.Fetchable) (w : Word) :
    (s.placeAtPc w).mem.readWord s.pc = w := by
  have h : s.pc.toNat < Config.fetchLimit := hpc
  simp only [State.placeAtPc, if_pos h]
  exact Memory.readWord_writeWord hm (by simp only [Config.fetchLimit, Config.memSize, Config.ilen] at *; omega) w

/-- Memory right after reset is in canonical form. -/
theorem State.reset_mem_wf : State.reset.mem.wf := Memory.wf_nil

end Sys2Proof.Machine
end

