-- ==== Sys2Proof/Laws/Ops.lean ====
section
/-! SUPPORT. What each shared operation can do, said once: the call stack, the meanings, the cycle, the step. -/

namespace Sys2Proof.Machine

/-! ### The call stack (R95, R96, R100, R101) -/

/-- A push answers nothing exactly when the stack is full (R96). -/
theorem State.push?_eq_none_iff (s : State) (v : Slot) : s.push? v = none ↔ s.sp.val = Config.stackDepth := by
  have := s.sp.isLt
  unfold State.push?
  split
  · next h => simp only [reduceCtorEq, false_iff]; exact Nat.ne_of_lt h
  · next h => simp only [true_iff]; exact Nat.le_antisymm (Nat.le_of_lt_succ this) (Nat.le_of_not_lt h)

/-- A push writes the slot `sp` and raises `sp` by one; nothing else moves (R95). -/
theorem State.push?_eq_some {s t : State} {v : Slot} (h : s.push? v = some t) :
    ∃ hsp : s.sp.val < Config.stackDepth,
      t = { s with stack := s.stack.set s.sp.val v hsp, sp := ⟨s.sp.val + 1, Nat.succ_lt_succ hsp⟩ } := by
  unfold State.push? at h
  split at h
  · next hsp => exact ⟨hsp, (Option.some.inj h).symm⟩
  · exact absurd h (by simp)

theorem State.push?_of_lt {s : State} (v : Slot) (hsp : s.sp.val < Config.stackDepth) :
    s.push? v = some { s with stack := s.stack.set s.sp.val v hsp, sp := ⟨s.sp.val + 1, Nat.succ_lt_succ hsp⟩ } := by
  simp only [State.push?, dif_pos hsp]

/-- A pop answers nothing exactly when the stack is empty (R101). -/
theorem State.pop?_eq_none_iff (s : State) : s.pop? = none ↔ s.sp.val = 0 := by
  unfold State.pop?
  split
  · next h => simp only [reduceCtorEq, false_iff]; exact Nat.ne_of_gt h
  · next h => simp only [true_iff]; exact Nat.eq_zero_of_not_pos h

/-- A pop lowers `sp` by one and gives the slot there; nothing else moves (R100). -/
theorem State.pop?_of_succ {s : State} {k : Nat} (hk : k < Config.stackDepth) (hsp : s.sp.val = k + 1) :
    s.pop? = some (s.stack[k], { s with sp := ⟨k, Nat.lt_succ_of_lt hk⟩ }) := by
  have e : s.sp.val - 1 = k := by omega
  unfold State.pop?
  rw [dif_pos (by omega)]
  simp only [e]

/-- A pop that answers comes from a stack that is not empty. -/
theorem State.pop?_eq_some {s t : State} {v : Slot} (h : s.pop? = some (v, t)) :
    ∃ (k : Nat) (hk : k < Config.stackDepth), s.sp.val = k + 1 ∧ v = s.stack[k] ∧
      t = { s with sp := ⟨k, Nat.lt_succ_of_lt hk⟩ } := by
  rcases hsp : s.sp.val with _ | k
  · rw [(s.pop?_eq_none_iff).mpr hsp] at h
    exact absurd h (by simp)
  · have hk : k < Config.stackDepth := by
      have := s.sp.isLt
      simp only [Config.stackDepth] at this ⊢
      omega
    rw [State.pop?_of_succ hk hsp] at h
    simp only [Option.some.injEq, Prod.mk.injEq] at h
    exact ⟨k, hk, rfl, h.1.symm, h.2.symm⟩

/-- After a push, the live slots are those before it and the value pushed, which is the newest (R31, R95). -/
theorem State.take_set_at_sp (s : State) (v : Slot) (hsp : s.sp.val < Config.stackDepth) :
    (s.stack.set s.sp.val v hsp).toList.take (s.sp.val + 1) = s.liveStack ++ [v] := by
  have hsp' : s.sp.val < 16 := hsp
  rw [State.liveStack, Vector.toList_set, List.take_add_one]
  simp [List.take_set_of_le, hsp']

/-- Before a pop, the live slots are those left after it and the value popped (R31, R100). -/
theorem State.liveStack_of_succ (s : State) (k : Nat) (hk : k < Config.stackDepth) (hsp : s.sp.val = k + 1) :
    s.liveStack = s.stack.toList.take k ++ [s.stack[k]] := by
  have hk' : k < 16 := hk
  rw [State.liveStack, hsp, List.take_add_one]
  simp [hk']

/-! ### The meanings -/

theorem execHalt_eq (s : State) : execHalt s = .next s.halt := rfl

theorem execAdd_eq (x y : RegIdx) (s : State) :
    execAdd x y s = .next ((s.writeReg x (wrappedSum (s.readReg x) (s.readReg y))).setCarry
      (carryByte (s.readReg x) (s.readReg y))) := rfl

/-- `CALL` either pushes and jumps, or overflows (R95, R96). -/
theorem execCall_cases (nnn : Target) (s : State) :
    (∃ hsp : s.sp.val < Config.stackDepth,
      execCall nnn s = .next { s with
        pc := callTarget nnn, stack := s.stack.set s.sp.val s.pc hsp, sp := ⟨s.sp.val + 1, Nat.succ_lt_succ hsp⟩ }) ∨
    (s.sp.val = Config.stackDepth ∧ execCall nnn s = .next (s.raiseIn (.call nnn) .stackOverflow)) := by
  unfold execCall
  rw [slotOfPc_eq]
  split
  · next h => exact .inr ⟨(s.push?_eq_none_iff s.pc).mp h, rfl⟩
  · next t h =>
    obtain ⟨hsp, rfl⟩ := State.push?_eq_some h
    exact .inl ⟨hsp, rfl⟩

/-- `RET` either pops into `pc`, or underflows (R100, R101). -/
theorem execRet_cases (s : State) :
    (∃ (k : Nat) (hk : k < Config.stackDepth), s.sp.val = k + 1 ∧
      execRet s = .next { s with pc := s.stack[k], sp := ⟨k, Nat.lt_succ_of_lt hk⟩ }) ∨
    (s.sp.val = 0 ∧ execRet s = .next (s.raiseIn .ret .stackUnderflow)) := by
  unfold execRet
  split
  · next h => exact .inr ⟨s.pop?_eq_none_iff.mp h, rfl⟩
  · next v t h =>
    obtain ⟨k, hk, hsp, rfl, rfl⟩ := State.pop?_eq_some h
    exact .inl ⟨k, hk, hsp, by rw [pcOfSlot_eq]; rfl⟩

@[simp] theorem callTarget_toNat (nnn : Target) : (callTarget nnn).toNat = nnn.toNat := by
  have := nnn.isLt
  simp [callTarget]
  omega

@[simp] theorem wrappedSum_toNat (a b : RegVal) : (wrappedSum a b).toNat = (a.toNat + b.toNat) % 256 := by
  simp [wrappedSum, exactSum]

theorem carryByte_toNat (a b : RegVal) : (carryByte a b).toNat = if 255 < a.toNat + b.toNat then 1 else 0 := by
  unfold carryByte exactSum
  split <;> simp_all <;> omega

/-- What an instruction can do, whole (R90, R95, R100, R110). -/
theorem exec_cases {i : Instr} {s t : State} (h : exec i s = .next t) :
    (i = .halt ∧ t = s.halt) ∨
    (∃ x y, i = .add x y ∧ t = (s.writeReg x (wrappedSum (s.readReg x) (s.readReg y))).setCarry
      (carryByte (s.readReg x) (s.readReg y))) ∨
    (∃ nnn, i = .call nnn ∧
      ((∃ hsp : s.sp.val < Config.stackDepth, t = { s with
          pc := callTarget nnn, stack := s.stack.set s.sp.val s.pc hsp,
          sp := ⟨s.sp.val + 1, Nat.succ_lt_succ hsp⟩ }) ∨
        (s.sp.val = Config.stackDepth ∧ t = s.raiseIn (.call nnn) .stackOverflow))) ∨
    (i = .ret ∧
      ((∃ (k : Nat) (hk : k < Config.stackDepth), s.sp.val = k + 1 ∧
          t = { s with pc := s.stack[k], sp := ⟨k, Nat.lt_succ_of_lt hk⟩ }) ∨
        (s.sp.val = 0 ∧ t = s.raiseIn .ret .stackUnderflow))) := by
  cases i with
  | halt => exact .inl ⟨rfl, by cases h; rfl⟩
  | add x y => exact .inr (.inl ⟨x, y, rfl, by cases h; rfl⟩)
  | call nnn =>
    refine .inr (.inr (.inl ⟨nnn, rfl, ?_⟩))
    rcases execCall_cases nnn s with ⟨hsp, e⟩ | ⟨hsp, e⟩ <;> cases e.symm.trans h
    · exact .inl ⟨hsp, rfl⟩
    · exact .inr ⟨hsp, rfl⟩
  | ret =>
    refine .inr (.inr (.inr ⟨rfl, ?_⟩))
    rcases execRet_cases s with ⟨k, hk, hsp, e⟩ | ⟨hsp, e⟩ <;> cases e.symm.trans h
    · exact .inl ⟨k, hk, hsp, rfl⟩
    · exact .inr ⟨hsp, rfl⟩

/-- Every instruction answers a next state: it has its effect, or it takes its fault (R152). -/
theorem exec_next (i : Instr) (s : State) : ∃ t, exec i s = .next t := by
  cases i with
  | halt => exact ⟨_, rfl⟩
  | add x y => exact ⟨_, rfl⟩
  | call nnn => rcases execCall_cases nnn s with ⟨_, e⟩ | ⟨_, e⟩ <;> exact ⟨_, e⟩
  | ret => rcases execRet_cases s with ⟨_, _, _, e⟩ | ⟨_, e⟩ <;> exact ⟨_, e⟩

/-! ### The cycle and the step -/

/-- In a stopped state nothing changes (R32, R185). -/
theorem step_of_stopped {s : State} (h : s.status.isStopped = true) : step s = .next s := by
  simp [step, State.hostStep, h]

/-- In the states a step acts in, it is the cycle with the run state `Running` (R185). -/
theorem step_of_active {s : State} (h : s.Active) : step s = (s.setStatus .running).cycle := by
  simp [step, State.hostStep, h.not_stopped, State.start_of_active h]

/-- The loop of `run()` does nothing outside `Running` (R81). -/
theorem State.loop_of_not_running {s : State} (h : s.status ≠ .running) (turns : Nat) : s.loop turns = .next s := by
  cases turns <;> simp [State.loop, h]

theorem State.cycle_of_not_fetchable {s : State} (h : ¬ s.Fetchable) :
    s.cycle = .next (s.raise .fetchOutOfRange none s.pc) := by
  simp only [State.cycle, if_neg h]

theorem State.cycle_of_instr {s : State} {i : Instr} (h : s.Fetchable) (hd : decode s.fetched = .instr i) :
    s.cycle = exec i s.advancePc := by
  simp only [State.cycle, if_pos h]
  rw [show s.mem.readWord s.pc = s.fetched from rfl, hd]

theorem State.cycle_of_unsupported {s : State} {w : Word} (h : s.Fetchable) (hd : decode s.fetched = .unsupported w) :
    s.cycle = .next (s.advancePc.raise .unsupportedOpcode (some w) s.pc) := by
  simp only [State.cycle, if_pos h]
  rw [show s.mem.readWord s.pc = s.fetched from rfl, hd]

/-- Every cycle answers a next state (R80). -/
theorem State.cycle_next (s : State) : ∃ t, s.cycle = .next t := by
  by_cases hf : s.Fetchable
  · rcases hd : decode s.fetched with i | w
    · rw [State.cycle_of_instr hf hd]
      exact exec_next i _
    · exact ⟨_, State.cycle_of_unsupported hf hd⟩
  · exact ⟨_, State.cycle_of_not_fetchable hf⟩

/-- What a step can do, whole: nothing in a stopped state; otherwise a fetch fault, an instruction, or an
unsupported word. -/
theorem step_cases (s : State) :
    (s.status.isStopped = true ∧ step s = .next s) ∨
    (s.Active ∧ ¬ s.Fetchable ∧ step s = .next ((s.setStatus .running).raise .fetchOutOfRange none s.pc)) ∨
    (s.Active ∧ s.Fetchable ∧ ∃ i, decode s.fetched = .instr i ∧
      step s = exec i (s.setStatus .running).advancePc) ∨
    (s.Active ∧ s.Fetchable ∧ ∃ w, decode s.fetched = .unsupported w ∧
      step s = .next ((s.setStatus .running).advancePc.raise .unsupportedOpcode (some w) s.pc)) := by
  rcases s.active_or_stopped with ha | hs
  · have e : step s = (s.setStatus .running).cycle := by
      simp [step, State.hostStep, ha.not_stopped, State.start_of_active ha]
    by_cases hf : s.Fetchable
    · rcases hd : decode s.fetched with i | w
      · exact .inr (.inr (.inl ⟨ha, hf, i, rfl, e.trans (State.cycle_of_instr hf hd)⟩))
      · exact .inr (.inr (.inr ⟨ha, hf, w, rfl, e.trans (State.cycle_of_unsupported hf hd)⟩))
    · exact .inr (.inl ⟨ha, hf, e.trans (State.cycle_of_not_fetchable hf)⟩)
  · exact .inl ⟨hs, by simp [step, State.hostStep, hs]⟩

/-- The word that `withFetchWord` places is the one the next step fetches. -/
theorem State.withFetchWord_fetched {s : State} (hm : s.mem.wf) (hpc : s.Fetchable) (nbits w : Nat) :
    (s.withFetchWord nbits w).fetched = tableWord nbits w := by
  simp only [State.fetched, State.withFetchWord, State.placeAtPc_pc]
  exact State.placeAtPc_fetched hm hpc _

end Sys2Proof.Machine
end

