-- ==== Sys2Proof/Laws/Run.lean ====
section
/-! SUPPORT. The loop of `run()`: how turns add up, and the induction over them, packaged once. -/

namespace Sys2Proof.Machine

/-- While the run state is `Running`, the host's step is the cycle (R185). -/
theorem step_of_running {s : State} (h : s.status = .running) : step s = s.cycle := by
  rw [step_of_active (.inr h)]
  congr 1
  cases s
  simp_all [State.setStatus]

/-- One turn of the loop is one cycle (R81). -/
theorem State.loop_succ {s t : State} (h : s.status = .running) (hc : s.cycle = .next t) (turns : Nat) :
    s.loop (turns + 1) = t.loop turns := by
  simp [State.loop, h, hc]

/-- Turns add up: after the first `n`, the next `m` go on from the state reached (R81). -/
theorem State.loop_add {n : Nat} {s t : State} (h : s.loop n = .next t) (m : Nat) : s.loop (n + m) = t.loop m := by
  induction n generalizing s with
  | zero => cases h; rw [Nat.zero_add]
  | succ n ih =>
    rw [show n + 1 + m = n + m + 1 by omega]
    by_cases hr : s.status = .running
    · simp only [State.loop, if_pos hr] at h ⊢
      cases hc : s.cycle with
      | next u => rw [hc] at h; exact ih h
      | fault r => rw [hc] at h; cases h
      | refused r => rw [hc] at h; cases h
    · rw [State.loop_of_not_running hr] at h ⊢
      cases h
      exact (State.loop_of_not_running hr m).symm

/-- What every cycle of a running state keeps, every number of turns keeps. -/
theorem State.loop_keeps {P : State → Prop} (keeps : ∀ s t, s.status = .running → P s → s.cycle = .next t → P t)
    {turns : Nat} {s t : State} (hs : P s) (h : s.loop turns = .next t) : P t := by
  induction turns generalizing s with
  | zero => cases h; exact hs
  | succ turns ih =>
    by_cases hr : s.status = .running
    · simp only [State.loop, if_pos hr] at h
      cases hc : s.cycle with
      | next u => rw [hc] at h; exact ih (keeps s u hr hs hc) h
      | fault r => rw [hc] at h; cases h
      | refused r => rw [hc] at h; cases h
    · rw [State.loop_of_not_running hr] at h
      cases h
      exact hs

end Sys2Proof.Machine
end

