-- ==== Sys2Proof/Laws/HostApi.lean ====
section
/-! SUPPORT. The host's session: its small lemmas, what each operation can do to it, and the induction over the
operations of a session, packaged once. -/

namespace Sys2Proof.Machine

@[simp] theorem Session.begin_core (s : State) : (Session.begin s).core = s := rfl
@[simp] theorem Session.begin_startup (s : State) : (Session.begin s).startup = true := rfl
@[simp] theorem Session.used_core (t : State) : (Session.used t).core = t := rfl
@[simp] theorem Session.used_startup (t : State) : (Session.used t).startup = false := rfl

/-! ### What an operation can do -/

/-- `new_compositor` is refused without effect, or gives the core its compositor at startup (R123, R185). -/
theorem Session.newCompositor_cases (h : Session) (cfg : CompositorConfig) (tiles0 : TileMap cfg) :
    (∃ why, h.newCompositor cfg tiles0 = (.refused why, h)) ∨
    (h.startup = true ∧ h.core.compositor = none ∧ ∃ c : Compositor,
      h.newCompositor cfg tiles0 = (.ok, { h with core := { h.core with compositor := some c } })) := by
  unfold Session.newCompositor
  split
  · split
    · exact .inl ⟨_, rfl⟩
    · exact .inl ⟨_, rfl⟩
    · next hc hs => exact .inr ⟨hs, hc, _, rfl⟩
  · exact .inl ⟨_, rfl⟩

/-- `new_interpreter` is refused without effect, or resets the interpreter (R181, R185). -/
theorem Session.newInterpreter_cases (h : Session) (cfg : CompositorConfig) :
    h.newInterpreter cfg = (.refused .invalidConfiguration, h) ∨
    h.newInterpreter cfg = (.ok, { h with core := State.constructed h.core.compositor }) := by
  unfold Session.newInterpreter
  split
  · exact .inr rfl
  · exact .inl rfl

/-- `load` is refused without effect, or writes one byte in `Ready` (R56, R185). -/
theorem Session.load_cases (h : Session) (addr : Addr) (byte : Byte) :
    (h.core.status ≠ .ready ∧ h.load addr byte = (.refused .notReady, h)) ∨
    (h.core.status = .ready ∧ h.load addr byte = (.ok, .used (h.core.memWrite addr byte))) := by
  unfold Session.load
  split
  · next hr => exact .inr ⟨hr, rfl⟩
  · next hr => exact .inl ⟨hr, rfl⟩

/-- `set_reg` is refused without effect, or writes one register in `Ready` (R185). -/
theorem Session.setReg_cases (h : Session) (i : RegIdx) (v : RegVal) :
    (h.core.status ≠ .ready ∧ h.setReg i v = (.refused .notReady, h)) ∨
    (h.core.status = .ready ∧ h.setReg i v = (.ok, .used (h.core.writeReg i v))) := by
  unfold Session.setReg
  split
  · next hr => exact .inr ⟨hr, rfl⟩
  · next hr => exact .inl ⟨hr, rfl⟩

/-- `draw` answers and changes nothing (R136). -/
theorem Session.draw_session (h : Session) (dest : List Byte) : (h.draw dest).2 = h := by
  unfold Session.draw
  split <;> rfl

/-- The loop of `run()` always answers a next state: no step stops otherwise (R76, R152). -/
theorem State.loop_next (turns : Nat) (s : State) : ∃ t, s.loop turns = .next t := by
  induction turns generalizing s with
  | zero => exact ⟨s, rfl⟩
  | succ turns ih =>
    by_cases hr : s.status = .running
    · obtain ⟨t, ht⟩ := State.cycle_next s
      rw [State.loop_succ hr ht]
      exact ih t
    · exact ⟨s, State.loop_of_not_running hr _⟩

/-- `run()` leaves the state its turns reach, and startup is over (R81). -/
theorem Session.run_of_loop {h : Session} {turns : Nat} {t : State} (ht : h.core.start.loop turns = .next t) :
    h.run turns = (runReply t.status, .used t) := by
  simp [Session.run, Session.after, ht]

/-- `step()` leaves the state the step reaches, and startup is over (R185). -/
theorem Session.step_of_next {h : Session} {t : State} (ht : Machine.step h.core = .next t) :
    h.step = (.status t.status, .used t) := by
  simp [Session.step, Session.after, ht]

/-- A reply that is `notReturned` is that of a `run()` still `Running`. -/
theorem runReply_eq_notReturned_iff (r : RunState) : runReply r = .notReturned ↔ r = .running := by
  cases r <;> simp [runReply]

/-- In a stopped state the reply of `run()` is that state (R81). -/
theorem runReply_of_stopped {r : RunState} (h : r.isStopped = true) : runReply r = .status r := by
  cases r <;> simp_all [runReply, RunState.isStopped]

/-! ### Sessions -/

/-- What every operation keeps, every session keeps. -/
theorem hostSession_keeps {P : Session → Prop} (keeps : ∀ op h, P h → P (hostCall op h).2) (ops : List HostOp)
    {h : Session} (hh : P h) : P (hostSession ops h).2 := by
  induction ops generalizing h with
  | nil => exact hh
  | cons op ops ih =>
    unfold hostSession
    split
    · exact keeps op h hh
    · exact ih (keeps op h hh)

/-- A session whose first operation is complete goes on from where it left (R61). -/
theorem hostSession_cons_of_complete {op : HostOp} {h : Session} (hr : (hostCall op h).1 ≠ .notReturned)
    (ops : List HostOp) :
    hostSession (op :: ops) h =
      ((hostCall op h).1 :: (hostSession ops (hostCall op h).2).1, (hostSession ops (hostCall op h).2).2) := by
  conv_lhs => unfold hostSession
  rw [if_neg hr]

end Sys2Proof.Machine
end

