-- ==== Sys2Proof/Laws/PerInstr.lean ====
section
/-! SUPPORT. Statements made of every instruction as syntax, one lemma per constructor. -/

namespace Sys2Proof.Laws.TableRow

/-- An instruction is well formed and its word stands in its own row of the opcode map (R74). -/
def Statement (i : Instr) : Prop :=
  i.wellFormed = true ∧ (opcodeRow i).matchesWord (encode i) = true ∧ opcodeRow i ∈ opcodeTable

theorem halt : Statement .halt := by unfold Statement; decide

theorem ret : Statement .ret := by unfold Statement; decide

theorem call (nnn : Target) : Statement (.call nnn) := by
  refine ⟨by simpa [Instr.wellFormed] using nnn.isLt, ?_, by simp [opcodeTable, opcodeRow]⟩
  simp only [OpcodeRow.matchesWord, opcodeRow, encode, beq_iff_eq]
  refine BitVec.eq_of_getLsbD_eq fun i hi => ?_
  interval_cases i <;> simp only [BitVec.getLsbD_and, BitVec.getLsbD_append] <;> simp

theorem add (x y : RegIdx) : Statement (.add x y) := by
  refine ⟨?_, ?_, by simp [opcodeTable, opcodeRow]⟩
  · have := x.isLt
    have := y.isLt
    simp_all [Instr.wellFormed]
  · simp only [OpcodeRow.matchesWord, opcodeRow, encode, beq_iff_eq]
    refine BitVec.eq_of_getLsbD_eq fun i hi => ?_
    interval_cases i <;> simp only [BitVec.getLsbD_and, BitVec.getLsbD_append] <;> simp

end Sys2Proof.Laws.TableRow
end

