-- ==== Sys2Proof/Tests/Slice0.lean ====
section
/-! SUPPORT. The checks refuse ill-formed terms, words written out from the encodings decode, and one step or one call
gives what 95_test_vectors.md says (derived there from the rules). Then, for each statement with hypotheses, states and
operands that meet them together. -/

namespace Sys2Proof.Tests

open Sys2Proof.Machine

/-! ### Small states -/

/-- A running interpreter with no compositor, empty memory and zero registers. -/
def base : State := State.bare.setStatus .running

/-- `base` at `pc`, with a word to fetch there. -/
def fetching (pc w : Word) : State := (base.setPc pc).placeAtPc w

/-- `s` with `sp` and one call stack slot set. -/
def stacked (s : State) (sp : Fin 17) (slot : Fin 16) (v : Word) : State :=
  { s with sp := sp, stack := s.stack.set slot.val v slot.isLt }

/-- The next state, where there is one. -/
def after (s : State) : State :=
  match step s with
  | .next t => t
  | .fault _ => s
  | .refused _ => s

/-- Program P2: a `CALL 0x000` at 0x0000, run again and again. -/
def recursion : Nat → State
  | 0 => fetching 0 0x2000
  | k + 1 => after (recursion k)

/-- One tile of default Pixels. -/
def cyanTile : Compositor where
  cfg := ⟨2, 2, 1, 1, 1, 1⟩
  valid := by decide
  tiles := #v[#v[Sprite.cyan ⟨2, 2, 1, 1, 1, 1⟩]]

/-! ### WellFormed: an ill-formed term for each check -/

theorem test_register_operands_are_checked :
    AsmItem.wellFormed (.add 16 0) = false ∧ AsmItem.wellFormed (.add 0 16) = false ∧
      AsmItem.wellFormed (.add 15 15) = true := by decide

theorem test_target_and_word_operands_are_checked :
    AsmItem.wellFormed (.call (.addr 0x1000)) = false ∧ AsmItem.wellFormed (.call (.addr 0xFFF)) = true ∧
      AsmItem.wellFormed (.word 0x10000) = false ∧ AsmItem.wellFormed (.word 0xFFFF) = true := by decide

theorem test_configuration_constants_are_positive :
    CompositorConfig.wellFormed ⟨0, 1, 1, 1, 1, 1⟩ = false ∧ CompositorConfig.wellFormed ⟨1, 0, 1, 1, 1, 1⟩ = false ∧
      CompositorConfig.wellFormed ⟨1, 1, 0, 1, 1, 1⟩ = false ∧
      CompositorConfig.wellFormed ⟨1, 1, 1, 0, 1, 1⟩ = false ∧
      CompositorConfig.wellFormed ⟨1, 1, 1, 1, 0, 1⟩ = false ∧
      CompositorConfig.wellFormed ⟨1, 1, 1, 1, 1, 0⟩ = false := by decide

theorem test_screen_fits_map :
    CompositorConfig.wellFormed ⟨1, 1, 1, 1, 2, 1⟩ = false ∧ CompositorConfig.wellFormed ⟨1, 1, 1, 1, 1, 2⟩ = false ∧
      CompositorConfig.wellFormed .reference = true := by decide

theorem test_memory_form_is_checked :
    ¬ Memory.wf [(2, 1#8), (1, 1#8)] ∧ ¬ Memory.wf [(1, 1#8), (1, 2#8)] ∧ ¬ Memory.wf [(1, 0#8)] ∧
      ¬ Memory.wf [(65536, 1#8)] ∧ Memory.wf [(1, 1#8), (65535, 2#8)] := by decide

/-- No ill-formed instruction exists: each field has the width of its encoding (R21, R72). -/
theorem test_every_instruction_is_well_formed (i : Instr) : i.wellFormed = true := by
  cases i with
  | halt => exact Laws.TableRow.halt.1
  | ret => exact Laws.TableRow.ret.1
  | call nnn => exact (Laws.TableRow.call nnn).1
  | add x y => exact (Laws.TableRow.add x y).1

/-! ### Decoding: words written out bit by bit from R73 and V-DEC -/

theorem test_decode_halt : decodeBytes [0b00000000#8, 0b00000000#8] = .instr .halt [] := by decide

theorem test_decode_ret : decodeBytes [0b00000000#8, 0b11101110#8] = .instr .ret [] := by decide

theorem test_decode_call : decodeBytes [0b00101010#8, 0b10111100#8, 7#8] = .instr (.call 0xABC#12) [7#8] := by decide

theorem test_decode_add : decodeBytes [0b10000001#8, 0b00100100#8] = .instr (.add 1#4 2#4) [] := by decide

theorem test_decode_rejects :
    decode 0x00E0#16 = .unsupported 0x00E0#16 ∧ decode 0x0001#16 = .unsupported 0x0001#16 ∧
      decode 0x0EEE#16 = .unsupported 0x0EEE#16 ∧ decode 0x10EE#16 = .unsupported 0x10EE#16 ∧
      decode 0x8120#16 = .unsupported 0x8120#16 ∧ decode 0x8F0F#16 = .unsupported 0x8F0F#16 ∧
      decode 0xA004#16 = .unsupported 0xA004#16 := by decide

theorem test_decode_needs_two_bytes : decodeBytes [0x80#8] = .truncated := by decide

theorem test_encode_fields :
    encode (.call 0x123#12) = 0x2123#16 ∧ encode (.add 15#4 2#4) = 0x8F24#16 := by decide

theorem test_table_word :
    decodeTableWord 16 0x8124 = some (.add 1#4 2#4) ∧ decodeTableWord 16 0x00EF = none := by decide

/-! ### One step (V-FETCH, V-HALT, V-CALL, V-RET, V-ADD) -/

theorem test_reset_runs_placed_word :
    step (State.reset.withFetchWord 16 0x2481) =
      exec (.call 0x481#12) ((State.reset.withFetchWord 16 0x2481).setStatus .running).advancePc := by rfl

theorem test_halt_pc_and_sp :
    (after (stacked (fetching 0x0ABC 0x0000) 3 0 0)).status = .halted ∧
      (after (stacked (fetching 0x0ABC 0x0000) 3 0 0)).pc = 0x0ABE#16 ∧
      (after (stacked (fetching 0x0ABC 0x0000) 3 0 0)).sp = 3 := by decide

theorem test_call_last_slot :
    (after (stacked (fetching 0x0100 0x2000) 15 0 0)).stack[15] = 0x0102#16 ∧
      (after (stacked (fetching 0x0100 0x2000) 15 0 0)).sp = 16 ∧
      (after (stacked (fetching 0x0100 0x2000) 15 0 0)).pc = 0x0000#16 := by decide

theorem test_call_overflow :
    (after (stacked (fetching 0x0100 0x2000) 16 0 0)).status =
        .failed ⟨.stackOverflow, some 0x2000#16, 0x0100#16, 16⟩ ∧
      (after (stacked (fetching 0x0100 0x2000) 16 0 0)).pc = 0x0102#16 := by decide

theorem test_ret_full_stack :
    (after (stacked (fetching 0x0003 0x00EE) 16 15 0x0ABE)).pc = 0x0ABE#16 ∧
      (after (stacked (fetching 0x0003 0x00EE) 16 15 0x0ABE)).sp = 15 := by decide

theorem test_ret_underflow :
    (after (fetching 0x0040 0x00EE)).status = .failed ⟨.stackUnderflow, some 0x00EE#16, 0x0040#16, 0⟩ ∧
      (after (fetching 0x0040 0x00EE)).pc = 0x0042#16 := by decide

theorem test_add_carries_out :
    (after (((fetching 0 0x8124).writeReg 1 0xF0).writeReg 2 0x20)).readReg 1 = 0x10#8 ∧
      (after (((fetching 0 0x8124).writeReg 1 0xF0).writeReg 2 0x20)).readReg 15 = 1#8 ∧
      (after (((fetching 0 0x8124).writeReg 1 0x7F).writeReg 2 0x01)).readReg 15 = 0#8 := by decide

theorem test_add_flag_register :
    (after (((fetching 0 0x8F24).writeReg 15 0xFF).writeReg 2 0x01)).readReg 15 = 1#8 ∧
      (after (((fetching 0 0x81F4).writeReg 15 0x01).writeReg 1 0xFF)).readReg 1 = 0#8 ∧
      (after ((fetching 0 0x8FF4).writeReg 15 0x7F)).readReg 15 = 0#8 := by decide

theorem test_unsupported_word :
    (after (fetching 0x0002 0x1234)).status = .failed ⟨.unsupportedOpcode, some 0x1234#16, 0x0002#16, 0⟩ ∧
      (after (fetching 0x0002 0x1234)).pc = 0x0004#16 := by decide

theorem test_top_of_memory :
    (after (fetching 0xFFFD 0x8004)).pc = 0xFFFF#16 ∧
      (after (base.setPc 0xFFFE)).status = .failed ⟨.fetchOutOfRange, none, 0xFFFE#16, 0⟩ ∧
      (after (base.setPc 0xFFFF)).pc = 0xFFFF#16 := by decide

/-! ### Fault codes (R150) -/

theorem test_fault_codes :
    FaultKind.unsupportedOpcode.code = 1 ∧ FaultKind.stackOverflow.code = 2 ∧ FaultKind.stackUnderflow.code = 3 ∧
      (Fault.bufferSizeMismatch 1 0).code = 4 ∧ FaultKind.fetchOutOfRange.code = 5 := by decide

/-! ### The host interface (V-STATE) -/

theorem test_load_is_refused_after_start :
    hostCall (.load 0 1#8) (.used base) = (.refused .notReady, .used base) ∧
      hostCall (.load 5 1#8) (.begin State.bare) = (.ok, .used { State.bare with mem := [(5, 1#8)] }) := by decide

theorem test_run_halts_and_stays_halted :
    (hostSession [.run 1, .run 0, .step] (.begin State.bare)).1 =
      [.status .halted, .status .halted, .status .halted] := by decide

/-- A `run()` that has not returned: the `set_reg` and the `step` after it do not begin (R61). -/
theorem test_nothing_begins_during_run :
    hostSession [.run 2, .setReg 0 1, .step] (.begin (recursion 0)) = ([.notReturned], .used (recursion 2)) := by decide

theorem test_reset_leaves_failed :
    (hostSession [.load 0 0xFF#8, .step, .newInterpreter .reference, .readState] (.begin State.bare)).2 =
      .used State.bare := by decide

/-- `new_compositor` once and at startup (R185): after a `load`, though a new interpreter follows, it is refused. -/
theorem test_startup_ends :
    (hostSession [.newInterpreter .reference, .newCompositor cyanTile.cfg cyanTile.tiles,
        .newCompositor cyanTile.cfg cyanTile.tiles] (.begin State.bare)).1 = [.ok, .ok, .refused .compositorExists] ∧
      (hostSession [.load 0 0#8, .newInterpreter .reference, .newCompositor cyanTile.cfg cyanTile.tiles]
        (.begin State.bare)).1 = [.ok, .ok, .refused .startupOver] := by decide

/-! ### The compositor (V-IDX, V-FLAT, V-DRAW) -/

/-- Pixels named by one number in every channel. -/
def px (n : Nat) : Pixel := ⟨BitVec.ofNat 8 n, BitVec.ofNat 8 n, BitVec.ofNat 8 n, BitVec.ofNat 8 n⟩

/-- Two tiles side by side (V-FLAT, second row). -/
def twoTiles : Compositor where
  cfg := ⟨2, 2, 2, 1, 2, 1⟩
  valid := by decide
  tiles := #v[#v[#v[#v[px 1, px 2], #v[px 3, px 4]], #v[#v[px 5, px 6], #v[px 7, px 8]]]]

/-- The same map with a screen one tile wide (V-FLAT, fourth row). -/
def oneOfTwo : Compositor where
  cfg := ⟨2, 2, 2, 1, 1, 1⟩
  valid := by decide
  tiles := twoTiles.tiles

theorem test_index_reference :
    CompositorConfig.reference.pixelIndex 3 7 5 2 = 8882 ∧ CompositorConfig.reference.pixelIndex 8 15 9 15 = 23039 ∧
      CompositorConfig.reference.placeOf 8882 = ⟨3, 7, 5, 2⟩ ∧ CompositorConfig.reference.byteCount = 92160 := by
  decide

theorem test_flatten_interleaves_tile_rows :
    twoTiles.flatten = [px 1, px 2, px 5, px 6, px 3, px 4, px 7, px 8] := by decide

theorem test_flatten_reads_the_window : oneOfTwo.flatten = [px 1, px 2, px 3, px 4] := by decide

theorem test_draw_default_pixels :
    cyanTile.draw (List.replicate 16 9#8) =
      .ok [0, 255, 255, 255, 0, 255, 255, 255, 0, 255, 255, 255, 0, 255, 255, 255] := by decide

theorem test_draw_wrong_length :
    twoTiles.draw (List.replicate 31 9#8) = .failed (.bufferSizeMismatch 32 31) (List.replicate 31 9#8) := by decide

/-! ### The assembler (R84, program P1 with a label) -/

theorem test_assemble_p1 :
    assemble [⟨none, .call (.label "sub")⟩, ⟨none, .add 0 1⟩, ⟨none, .halt⟩, ⟨some "sub", .add 0 0⟩, ⟨none, .ret⟩] =
      .bytes [0x20, 0x06, 0x80, 0x14, 0x00, 0x00, 0x80, 0x04, 0x00, 0xEE] := by decide

theorem test_read_program_text :
    readProgram "sub: ADD r0, r15 ; 80 F4\n\n  CALL 0x0Ab\nCALL sub\n.word 0x1234".toList =
      .lines [⟨some "sub", .add 0 15⟩, ⟨none, .call (.addr 0xAB)⟩, ⟨none, .call (.label "sub")⟩,
        ⟨none, .word 0x1234⟩] := by decide

theorem test_read_program_text_bad_line :
    readProgram "HALT\nADD r0".toList = .badLine 2 ∧ readProgram "ADD r015, r0".toList = .badLine 1 := by decide

theorem test_write_text :
    AsmLine.text ⟨some "sub", .call (.addr 6)⟩ = "sub: CALL 0x006" ∧ AsmItem.text (.add 1 15) = "ADD r1, r15" ∧
      AsmItem.text (.word 0x00EE) = ".word 0x00EE" := by decide

theorem test_assemble_errors :
    assemble [⟨none, .call (.label "a")⟩] = .error (.unknownLabel "a") ∧
      assemble [⟨some "a", .halt⟩, ⟨some "a", .halt⟩] = .error (.repeatedLabel "a") ∧
      assemble [⟨none, .add 16 0⟩] = .error (.badOperand (.add 16 0)) := by decide

/-! ### Witnesses: the hypotheses of each statement are met together -/

theorem witness_DecodeOfEncode :
    Instr.wellFormed .halt = true ∧ Instr.wellFormed .ret = true ∧ Instr.wellFormed (.call 0xFFF#12) = true ∧
      Instr.wellFormed (.add 15#4 0#4) = true := by decide

theorem witness_EncodeOfDecode :
    decode 0x2FFF#16 = .instr (.call 0xFFF#12) ∧ decode 0x8FF4#16 = .instr (.add 15#4 15#4) := by decide

theorem witness_StepRunsDecodedInstruction :
    (fetching 0xFFFD 0x8FF4).Active ∧ (fetching 0xFFFD 0x8FF4).pc.toNat ≤ 0xFFFD ∧
      decodeBytes [(fetching 0xFFFD 0x8FF4).mem.read 0xFFFD, (fetching 0xFFFD 0x8FF4).mem.read 0xFFFE] =
        .instr (.add 15#4 15#4) [] := by decide

theorem witness_StepRunsDecodedInstruction_ready :
    State.bare.Active ∧ State.bare.pc.toNat ≤ 0xFFFD ∧
      decodeBytes [State.bare.mem.read 0, State.bare.mem.read 1] = .instr .halt [] := by decide

theorem witness_UnsupportedWordFaults :
    (fetching 0xFFFD 0xFFFF).Active ∧ (fetching 0xFFFD 0xFFFF).pc.toNat ≤ 0xFFFD ∧
      decode (fetching 0xFFFD 0xFFFF).fetched = .unsupported 0xFFFF#16 := by decide

theorem witness_FetchOutOfRangeFaults :
    (base.setPc 0xFFFE).Active ∧ 0xFFFE ≤ (base.setPc 0xFFFE).pc.toNat ∧
      (State.bare.setPc 0xFFFF).Active ∧ 0xFFFE ≤ (State.bare.setPc 0xFFFF).pc.toNat := by decide

theorem witness_FetchIsBigEndianPair :
    (0xFFFD#16).toNat ≤ 0xFFFD ∧ (fetching 0xFFFD 0x8124).pc.toNat ≤ 0xFFFD ∧
      Memory.read ((fetching 0xFFFD 0x8124).mem.write 3 1#8) 0xFFFD = (fetching 0xFFFD 0x8124).mem.read 0xFFFD ∧
      Memory.read ((fetching 0xFFFD 0x8124).mem.write 3 1#8) 0xFFFE = (fetching 0xFFFD 0x8124).mem.read 0xFFFE ∧
      (fetching 0xFFFD 0x8124).mem.write 3 1#8 ≠ (fetching 0xFFFD 0x8124).mem ∧
      0xFFFE ≤ (base.setPc 0xFFFE).pc.toNat := by decide

theorem witness_StepOutcomeConditions (s : State)
    (h : s ∈ [fetching 0xFFFD 0x0000, fetching 0xFFFD 0x00EE, stacked (fetching 0 0x2000) 16 0 0, fetching 0 0x8120,
      base.setPc 0xFFFE, fetching 0 0x8124]) : s.Active ∧ step s = .next (after s) := by
  simp only [List.mem_cons, List.not_mem_nil, or_false] at h
  rcases h with rfl | rfl | rfl | rfl | rfl | rfl <;> exact ⟨.inr rfl, rfl⟩

theorem witness_FaultEntryIsPrecise :
    (fetching 0xFFFD 0xFFFF).Active ∧ step (fetching 0xFFFD 0xFFFF) = .next (after (fetching 0xFFFD 0xFFFF)) ∧
      (after (fetching 0xFFFD 0xFFFF)).status = .failed ⟨.unsupportedOpcode, some 0xFFFF#16, 0xFFFD#16, 0⟩ :=
  ⟨.inr rfl, rfl, by decide⟩

theorem witness_FaultEntryIsPrecise_fetch :
    (base.setPc 0xFFFE).Active ∧ step (base.setPc 0xFFFE) = .next (after (base.setPc 0xFFFE)) ∧
      (after (base.setPc 0xFFFE)).status = .failed ⟨.fetchOutOfRange, none, 0xFFFE#16, 0⟩ :=
  ⟨.inr rfl, rfl, by decide⟩

theorem witness_CallPushesAndJumpsOrOverflows :
    (stacked base 0 0 0).sp.val < 16 ∧ (stacked base 15 0 0).sp.val < 16 ∧ (stacked base 16 0 0).sp.val = 16 := by decide

theorem witness_RetPopsIntoPc :
    (stacked base 1 0 5).sp.val = 0 + 1 ∧ (stacked base 16 15 5).sp.val = 15 + 1 := by decide

theorem witness_RetUnderflowsWhenEmpty : base.sp.val = 0 := by decide

/-- A `CALL 0x010` at 0xFFFD with one slot free, and a `RET` at its target. -/
def callThenRet : State :=
  { stacked (fetching 0xFFFD 0x2010) 15 0 2 with mem := (fetching 0xFFFD 0x2010).mem.writeWord 0x010 0x00EE }

theorem witness_CallThenRetRoundTrip :
    callThenRet.sp.val < 16 ∧ callThenRet.status = .running ∧ callThenRet.pc.toNat ≤ 0xFFFD ∧
      callThenRet.mem.readWord callThenRet.pc = encode (.call 0x010#12) ∧
      callThenRet.mem.readWord ((0x010#12).zeroExtend 16) = encode .ret := by decide

theorem witness_SeventeenthCallOverflows :
    (recursion 0).status = .running ∧ (recursion 0).sp.val = 0 ∧
      ∀ k, k ≤ 16 → step (recursion k) = .next (recursion (k + 1)) ∧ (recursion k).pc.toNat ≤ 0xFFFD ∧
        ∃ nnn, (recursion k).fetched = encode (.call nnn) := by
  refine ⟨by decide, by decide, fun k hk => ?_⟩
  interval_cases k <;> exact ⟨rfl, by decide, 0#12, by decide⟩

theorem witness_AddWithEqualOrFlagOperands :
    exec (.add 3#4 3#4) (base.writeReg 3 0x81) =
        .next (((base.writeReg 3 0x81).writeReg 3 0x02).writeReg 15 0x01) ∧
      exec (.add 1#4 15#4) base = .next ((base.writeReg 1 0).writeReg 15 0) ∧ (1#4 : RegIdx) ≠ 15#4 ∧
      exec (.add 15#4 15#4) base = .next ((base.writeReg 15 0).writeReg 15 0) := ⟨rfl, rfl, by decide, rfl⟩

theorem witness_AddWritesSumAndCarry : (3#4 : RegIdx) ≠ 15#4 ∧ (0#4 : RegIdx) ≠ 3#4 ∧ (0#4 : RegIdx) ≠ 15#4 := by decide

theorem witness_NoInstructionTouchesMemory : exec .halt base = .next base.halt := rfl

theorem witness_StepFrame_register :
    step ((fetching 0 0x8114).writeReg 1 3) = .next (after ((fetching 0 0x8114).writeReg 1 3)) ∧
      (after ((fetching 0 0x8114).writeReg 1 3)).readReg 1 ≠ ((fetching 0 0x8114).writeReg 1 3).readReg 1 :=
  ⟨rfl, by decide⟩

theorem witness_StepFrame_slot :
    step (stacked (fetching 0 0x2000) 15 0 0) = .next (after (stacked (fetching 0 0x2000) 15 0 0)) ∧
      (after (stacked (fetching 0 0x2000) 15 0 0)).stack[15] ≠ (stacked (fetching 0 0x2000) 15 0 0).stack[15] :=
  ⟨rfl, by decide⟩

theorem witness_PartsShareNothing :
    step base = .next (after base) ∧ base.compositor = State.bare.compositor ∧ base ≠ State.bare :=
  ⟨rfl, by decide, by decide⟩

theorem witness_DeadSlotsAreUnobservable :
    SameButDeadSlots (stacked (fetching 0 0x00EE) 1 1 7) (stacked (fetching 0 0x00EE) 1 1 9) ∧
      stacked (fetching 0 0x00EE) 1 1 7 ≠ stacked (fetching 0 0x00EE) 1 1 9 ∧
      step (stacked (fetching 0 0x00EE) 1 1 7) = .next (after (stacked (fetching 0 0x00EE) 1 1 7)) :=
  ⟨⟨rfl, rfl, rfl, rfl, rfl, rfl, rfl⟩, by decide, rfl⟩

/-- Live slots written out: one return address. -/
theorem live_slots_of_one {s : State} {v : Slot} (h : s.liveStack = [v]) (hv : s.mem.ReturnAddress v) :
    s.LiveSlotsAreReturns := by
  intro u hu
  rw [h, List.mem_singleton] at hu
  exact hu ▸ hv

/-- Live slots written out: none. -/
theorem no_live_slots {s : State} (h : s.liveStack = []) {P : Word → Prop} : ∀ v ∈ s.liveStack, P v := by
  simp [h]

/-- A running state with a call outstanding: the `CALL` at 0xFFFD, its return address in slot 0, a `RET` next. -/
def inCall : State :=
  { stacked (fetching 0x0010 0x00EE) 1 0 0xFFFF with mem := (fetching 0x0010 0x00EE).mem.writeWord 0xFFFD 0x2010 }

/-- A running state with one live slot, the highest return address there is, meets the invariant. -/
theorem witness_StepKeepsInvariant : inCall.Inv ∧ step inCall = .next (after inCall) :=
  ⟨⟨by decide, live_slots_of_one (v := 0xFFFF#16) (by decide) ⟨by decide, by decide, by decide⟩, fun h => absurd h (by decide),
    trivial⟩, rfl⟩

/-- A `CALL` at 0x0000 leaves the lowest return address there is. -/
theorem witness_StepKeepsInvariant_lowest : (recursion 0).Inv ∧ (recursion 1).liveStack = [2#16] :=
  ⟨⟨by decide, no_live_slots (by decide), fun h => absurd h (by decide), trivial⟩, by decide⟩

/-- A stopped state with its record meets the invariant. -/
theorem witness_StepKeepsInvariant_failed : (after (fetching 0x0040 0x00EE)).Inv :=
  ⟨by decide, no_live_slots (by decide), fun h => absurd h (by decide),
    ⟨rfl, ⟨by decide, by decide, by decide⟩, by decide, by decide⟩⟩

theorem witness_HostOperationsKeepInvariant : (Session.begin State.bare).Inv :=
  ⟨⟨by decide, no_live_slots (by decide), fun _ => ⟨rfl, rfl⟩, trivial⟩, fun _ => rfl⟩

/-- A memory with one `CALL`, of an even target. -/
theorem witness_EvenTargetsKeepPcEven :
    (fetching 0 0x2004).mem.EvenCalls ∧ (fetching 0 0x2004).EvenPc ∧
      step (fetching 0 0x2004) = .next (after (fetching 0 0x2004)) := by
  refine ⟨fun a nnn ha hd => ?_, ⟨by decide, no_live_slots (by decide)⟩, rfl⟩
  by_cases h0 : a.toNat = 0
  · have e : a = 0x0000#16 := BitVec.eq_of_toNat_eq h0
    subst e
    have : decode ((fetching 0 0x2004).mem.readWord 0x0000#16) = .instr (.call 0x004#12) := by decide
    rw [this] at hd
    cases hd
    decide
  · have e : (fetching 0 0x2004).mem = [(0, 0x20#8), (1, 0x04#8)] := by decide
    rw [e] at hd
    have h1 : ¬ 1 = a.toNat := by omega
    have h2 : ¬ 0 = a.toNat := by omega
    simp only [Memory.readWord_eq, Memory.read_cons, Memory.read_nil, h1, h2, if_false] at hd
    simp only [show ¬ 0 = a.toNat + 1 by omega, show ¬ 1 = a.toNat + 1 by omega, if_false] at hd
    have : decode (wordOfBytes Config.memFill Config.memFill) = .instr .halt := by decide
    rw [this] at hd
    cases hd

theorem witness_CanonicalMemoriesReadAlikeAreEqual :
    Memory.wf [(3, 1#8)] ∧ ∀ a, Memory.read [(3, 1#8)] a = Memory.read [(3, 1#8)] a := ⟨by decide, fun _ => rfl⟩

theorem witness_StoppedStatesAreTerminal :
    (Session.used base.halt).core.status.isStopped = true ∧
      (Session.used (after (fetching 0 0x00EE))).core.status.isStopped = true ∧
      (∀ cfg, HostOp.draw [] ≠ .newInterpreter cfg) := ⟨by decide, by decide, fun _ h => by cases h⟩

theorem witness_ZeroMemoryHaltsAtOnce :
    (base.setPc 0xFFFD).Active ∧ (base.setPc 0xFFFD).pc.toNat ≤ 0xFFFD ∧ ∀ a, (base.setPc 0xFFFD).mem.read a = 0#8 :=
  ⟨.inr rfl, by decide, fun _ => rfl⟩

theorem witness_RunReportsItsEnd :
    State.bare.RunReturns (after State.bare) ∧ (fetching 0 0xFFFF).RunReturns (after (fetching 0 0xFFFF)) :=
  ⟨⟨1, rfl, rfl⟩, ⟨1, rfl, rfl⟩⟩

theorem witness_NewInterpreterResets :
    CompositorConfig.reference.Valid ∧ ¬ CompositorConfig.Valid ⟨1, 1, 1, 1, 2, 1⟩ := by decide

/-- One session for each clause: startup lasts, startup is over, a compositor exists, and it exists while the
configuration is invalid, where two clauses would meet. -/
theorem witness_NewCompositorOnce :
    CompositorConfig.Valid ⟨1, 1, 1, 1, 1, 1⟩ ∧ ¬ CompositorConfig.Valid ⟨1, 1, 1, 1, 1, 2⟩ ∧
      (Session.begin State.bare).core.compositor = none ∧ (Session.begin State.bare).startup = true ∧
      (Session.used base).core.compositor = none ∧ (Session.used base).startup = false ∧
      (Session.begin State.reset).core.compositor ≠ none ∧
      (hostCall (.newCompositor ⟨1, 1, 1, 1, 1, 2⟩ #v[#v[#v[#v[Pixel.cyan]]]]) (.begin State.reset)).1 =
        .refused .invalidConfiguration :=
  ⟨by decide, by decide, rfl, rfl, rfl, rfl, Option.some_ne_none _, rfl⟩

theorem witness_StartupEndsForGood :
    (∃ addr byte, HostOp.load 0xFFFF 1#8 = .load addr byte ∧ (Session.begin State.bare).core.status = .ready) ∧
      (∃ i v, HostOp.setReg 15 1#8 = .setReg i v ∧ (Session.begin State.bare).core.status = .ready) ∧
      (∃ turns, HostOp.run 0 = .run turns) := ⟨⟨_, _, rfl, rfl⟩, ⟨_, _, rfl, rfl⟩, ⟨_, rfl⟩⟩

/-- A run seen for no turn has not returned; one that reaches a `HALT` has. -/
theorem witness_NothingBeginsDuringRun :
    (∃ t, (Session.begin State.bare).core.start.loop 0 = .next t ∧ t.status = .running) ∧
      (Session.begin State.bare).core.start.loop 1 = .next (after State.bare) ∧
      (after State.bare).status.isStopped = true := ⟨⟨_, rfl, rfl⟩, rfl, rfl⟩

theorem witness_LoadAndSetRegOnlyWhenReady :
    State.bare.mem.wf ∧ State.bare.status = .ready ∧ base.mem.wf ∧ base.status ≠ .ready ∧ 0 ≠ (0xFFFF#16).toNat ∧
      (0#4 : RegIdx) ≠ 15#4 := by decide

theorem witness_OnlyLoadChangesMemory :
    (hostCall (.load 0xFFFF 1#8) (.begin State.bare)).2.core.mem.read 0xFFFF ≠ State.bare.mem.read 0xFFFF := by decide

theorem witness_ReadStateShowsLiveSlots : 15 < (stacked base 16 15 7).sp.val ∧ 0 < (stacked base 1 0 7).sp.val := by
  decide

theorem witness_HostReachesEveryLaunchState : Memory.wf [(0, 0x20#8), (65535, 1#8)] := by decide

theorem witness_ConstructionFillsEveryPixel :
    15 < CompositorConfig.reference.spriteHeight ∧ 15 < CompositorConfig.reference.spriteWidth ∧
      8 < CompositorConfig.reference.mapHeight ∧ 9 < CompositorConfig.reference.mapWidth := by decide

theorem witness_PixelIndexIsBijection :
    CompositorConfig.reference.Valid ∧ 8 < CompositorConfig.reference.screenHeight ∧
      15 < CompositorConfig.reference.spriteHeight ∧ 9 < CompositorConfig.reference.screenWidth ∧
      15 < CompositorConfig.reference.spriteWidth ∧ 23039 < CompositorConfig.reference.pixelCount := by decide

theorem witness_FlattenIsRasterOrder :
    0 < twoTiles.cfg.screenHeight ∧ 1 < twoTiles.cfg.spriteHeight ∧ 1 < twoTiles.cfg.screenWidth ∧
      1 < twoTiles.cfg.spriteWidth := by decide

/-- `base` with a compositor. -/
def withTiles (c : Compositor) : State := { base with compositor := some c }

theorem witness_DrawCopiesEveryChannel :
    (withTiles twoTiles).compositor = some twoTiles ∧ (List.replicate 32 0#8).length = 4 * twoTiles.cfg.pixelCount ∧
      0 < twoTiles.cfg.screenHeight ∧ 1 < twoTiles.cfg.spriteHeight ∧ 1 < twoTiles.cfg.screenWidth ∧
      1 < twoTiles.cfg.spriteWidth := by decide

theorem witness_DrawRejectsWrongLength :
    base.compositor = none ∧ (withTiles twoTiles).compositor = some twoTiles ∧
      ([] : List Byte).length ≠ 4 * twoTiles.cfg.pixelCount ∧
      (List.replicate 33 0#8).length ≠ 4 * twoTiles.cfg.pixelCount ∧
      (List.replicate 32 0#8).length = 4 * twoTiles.cfg.pixelCount := by decide

theorem witness_DrawIgnoresOldDestination :
    (List.replicate 32 0#8).length = 4 * twoTiles.cfg.pixelCount ∧
      (List.replicate 32 1#8).length = 4 * twoTiles.cfg.pixelCount := by decide

theorem witness_TileMapNeverChanges : (withTiles twoTiles).compositor = some twoTiles := rfl

end Sys2Proof.Tests
end

section
/-! The interpreter and the compositor are apart (R3): replacing the compositor commutes with each shared operation, with
every meaning, and so with the step. -/

namespace Sys2Proof.Machine

/-- The state with another compositor part and the interpreter as it was (R3). -/
abbrev State.withCompositor (c : Option Compositor) (s : State) : State := { s with compositor := c }

/-! ### The call stack -/

theorem State.push?_withCompositor (c : Option Compositor) (s : State) (v : Slot) :
    (s.withCompositor c).push? v = (s.push? v).map (.withCompositor c) := by
  unfold State.push?
  split <;> rfl

theorem State.pop?_withCompositor (c : Option Compositor) (s : State) :
    (s.withCompositor c).pop? = s.pop?.map (Prod.map id (.withCompositor c)) := by
  unfold State.pop?
  split <;> rfl

/-! ### The meanings -/

theorem execCall_withCompositor (c : Option Compositor) (nnn : Target) (s : State) :
    execCall nnn (s.withCompositor c) = mapNext (.withCompositor c) (execCall nnn s) := by
  unfold execCall
  rw [State.push?_withCompositor]
  cases s.push? (slotOfPc s.pc) <;> rfl

theorem execRet_withCompositor (c : Option Compositor) (s : State) :
    execRet (s.withCompositor c) = mapNext (.withCompositor c) (execRet s) := by
  unfold execRet
  rw [State.pop?_withCompositor]
  cases s.pop? <;> rfl

/-- No instruction reads or writes the compositor (R3, R55). -/
theorem exec_withCompositor (c : Option Compositor) (i : Instr) (s : State) :
    exec i (s.withCompositor c) = mapNext (.withCompositor c) (exec i s) := by
  cases i with
  | halt => rfl
  | ret => exact execRet_withCompositor c s
  | call nnn => exact execCall_withCompositor c nnn s
  | add x y => rfl

/-! ### The cycle and the step -/

theorem State.cycle_withCompositor (c : Option Compositor) (s : State) :
    (s.withCompositor c).cycle = mapNext (.withCompositor c) s.cycle := by
  by_cases hf : s.Fetchable
  · rcases hd : decode s.fetched with i | w
    · rw [State.cycle_of_instr hf hd, State.cycle_of_instr (s := s.withCompositor c) hf hd]
      exact exec_withCompositor c i s.advancePc
    · rw [State.cycle_of_unsupported hf hd, State.cycle_of_unsupported (s := s.withCompositor c) hf hd]
      rfl
  · rw [State.cycle_of_not_fetchable hf, State.cycle_of_not_fetchable (s := s.withCompositor c) hf]
    rfl

theorem step_withCompositor (c : Option Compositor) (s : State) :
    step (s.withCompositor c) = mapNext (.withCompositor c) (step s) := by
  rcases s.active_or_stopped with ha | hs
  · rw [step_of_active ha, step_of_active (s := s.withCompositor c) ha]
    exact State.cycle_withCompositor c (s.setStatus .running)
  · rw [step_of_stopped hs, step_of_stopped (s := s.withCompositor c) hs]
    rfl

/-- A step leaves the compositor as it was (R3): it commutes with putting back the compositor that stands there. -/
theorem step_keeps_compositor {s t : State} (h : step s = .next t) : t.compositor = s.compositor := by
  have same : step s = mapNext (.withCompositor s.compositor) (step s) := step_withCompositor s.compositor s
  rw [h, mapNext, Host.Outcome.next.injEq] at same
  rw [same]

/-! ### The host's `draw` -/

/-- What `draw` answers is a function of the compositor and the buffer (R3, R136). -/
theorem Session.draw_reply_congr {h k : Session} (hc : h.core.compositor = k.core.compositor) (dest : List Byte) :
    (h.draw dest).1 = (k.draw dest).1 := by
  unfold Session.draw
  rw [hc]
  cases k.core.compositor <;> rfl

/-- Settles O25: the step commutes with a change of the compositor, and `draw` reads the compositor alone. -/
theorem partsShareNothing : Obligations.PartsShareNothing :=
  ⟨fun s c => step_withCompositor c s, fun _ _ => step_keeps_compositor, Session.draw_session,
    fun _ _ dest hc => Session.draw_reply_congr hc dest⟩

end Sys2Proof.Machine
end

section
/-! No instruction touches memory (R55): replacing memory commutes with the call stack's operations and with every
meaning, as replacing the compositor does. That a meaning leaves the part as it was follows from commuting with
putting back what stands there. -/

namespace Sys2Proof.Machine

/-- The state with another memory and everything else as it was. -/
abbrev State.withMem (m : Memory) (s : State) : State := { s with mem := m }

/-! ### The call stack, which is no part of memory (R29) -/

theorem State.push?_withMem (m : Memory) (s : State) (v : Slot) :
    (s.withMem m).push? v = (s.push? v).map (.withMem m) := by
  unfold State.push?
  split <;> rfl

theorem State.pop?_withMem (m : Memory) (s : State) :
    (s.withMem m).pop? = s.pop?.map (Prod.map id (.withMem m)) := by
  unfold State.pop?
  split <;> rfl

/-! ### The meanings -/

theorem execCall_withMem (m : Memory) (nnn : Target) (s : State) :
    execCall nnn (s.withMem m) = mapNext (.withMem m) (execCall nnn s) := by
  unfold execCall
  rw [State.push?_withMem]
  cases s.push? (slotOfPc s.pc) <;> rfl

theorem execRet_withMem (m : Memory) (s : State) :
    execRet (s.withMem m) = mapNext (.withMem m) (execRet s) := by
  unfold execRet
  rw [State.pop?_withMem]
  cases s.pop? <;> rfl

/-- The fetch is the only reader of memory (R52): after it, an instruction answers the same whatever memory holds. -/
theorem exec_withMem (m : Memory) (i : Instr) (s : State) :
    exec i (s.withMem m) = mapNext (.withMem m) (exec i s) := by
  cases i with
  | halt => rfl
  | ret => exact execRet_withMem m s
  | call nnn => exact execCall_withMem m nnn s
  | add x y => rfl

/-! ### What every meaning leaves alone -/

/-- An outcome that a change of the next state does not alter has a next state which the change leaves alone. -/
theorem next_eq_of_mapNext_eq {f : State → State} {o : Host.Outcome State Fault Refusal} {t : State}
    (hf : o = mapNext f o) (ho : o = .next t) : t = f t := by
  subst ho
  exact Host.Outcome.next.inj hf

theorem exec_keeps_mem {i : Instr} {s t : State} (h : exec i s = .next t) : t.mem = s.mem := by
  have fixed : t = t.withMem s.mem := next_eq_of_mapNext_eq (exec_withMem s.mem i s) h
  rw [fixed]

theorem exec_keeps_compositor {i : Instr} {s t : State} (h : exec i s = .next t) : t.compositor = s.compositor := by
  have fixed : t = t.withCompositor s.compositor := next_eq_of_mapNext_eq (exec_withCompositor s.compositor i s) h
  rw [fixed]

/-- Settles O23: every meaning commutes with a change of memory and with a change of the compositor, and so keeps
both. -/
theorem noInstructionTouchesMemory : Obligations.NoInstructionTouchesMemory :=
  ⟨fun _ _ _ h => ⟨exec_keeps_mem h, fun a => congrArg (·.read a) (exec_keeps_mem h), exec_keeps_compositor h⟩,
    fun i s m => exec_withMem m i s, fun i s c => exec_withCompositor c i s⟩

end Sys2Proof.Machine
end

section
/-! The decoder answers `d` exactly when the row of R75 for `d` holds of the word. One direction reads off what
`decode` answers; the other is that the rows are disjoint (R74), so the order of the tests does not matter. -/

namespace Sys2Proof.Machine

/-- The row of R75 for each outcome of `decode`, in arithmetic on the word: its pattern, and its fields as numbers. -/
def ReadsAs (w : Word) : Decoded → Prop
  | .instr .halt => w = 0x0000#16
  | .instr .ret => w = 0x00EE#16
  | .instr (.call nnn) => w.toNat / 0x1000 = 0x2 ∧ nnn.toNat = w.toNat % 0x1000
  | .instr (.add x y) =>
    w.toNat / 0x1000 = 0x8 ∧ w.toNat % 0x10 = 0x4 ∧
      x.toNat = w.toNat / 0x100 % 0x10 ∧ y.toNat = w.toNat / 0x10 % 0x10
  | .unsupported v =>
    v = w ∧ w ≠ 0x0000#16 ∧ w ≠ 0x00EE#16 ∧ w.toNat / 0x1000 ≠ 0x2 ∧
      ¬ (w.toNat / 0x1000 = 0x8 ∧ w.toNat % 0x10 = 0x4)

/-- Decode is total: the word lies in the row of what it decodes to. -/
theorem readsAs_decode (w : Word) : ReadsAs w (decode w) := by
  obtain ⟨hw, hd⟩ | ⟨hw, hd⟩ | ⟨hC, hd⟩ | ⟨hC, hD, hd⟩ | ⟨h0, hEE, h2, h84, hd⟩ := decode_cases w <;> rw [hd]
  · exact BitVec.eq_of_toNat_eq hw
  · exact BitVec.eq_of_toNat_eq hw
  · exact ⟨hC, fieldNNN_toNat w⟩
  · exact ⟨hC, hD, fieldX_toNat w, fieldY_toNat w⟩
  · exact ⟨rfl, mt (congrArg BitVec.toNat) h0, mt (congrArg BitVec.toNat) hEE, h2, not_and.mpr h84⟩

/-! ### What the words of each row decode to: the other rows do not hold of them (R74) -/

theorem decode_of_call_pattern {w : Word} (hC : w.toNat / 0x1000 = 0x2) :
    decode w = .instr (.call (fieldNNN w)) := by
  obtain other | other | ⟨-, hd⟩ | other | other := decode_cases w
  case inr.inr.inl => exact hd
  all_goals omega

theorem decode_of_add_pattern {w : Word} (hC : w.toNat / 0x1000 = 0x8) (hD : w.toNat % 0x10 = 0x4) :
    decode w = .instr (.add (fieldX w) (fieldY w)) := by
  obtain other | other | other | ⟨-, -, hd⟩ | other := decode_cases w
  case inr.inr.inr.inl => exact hd
  all_goals omega

theorem decode_of_no_pattern {w : Word} (h0 : w.toNat ≠ 0x0000) (hEE : w.toNat ≠ 0x00EE)
    (h2 : w.toNat / 0x1000 ≠ 0x2) (h84 : ¬ (w.toNat / 0x1000 = 0x8 ∧ w.toNat % 0x10 = 0x4)) :
    decode w = .unsupported w := by
  obtain other | other | other | other | ⟨-, -, -, -, hd⟩ := decode_cases w
  case inr.inr.inr.inr => exact hd
  all_goals omega

theorem decode_eq_of_readsAs {w : Word} {d : Decoded} (h : ReadsAs w d) : decode w = d := by
  match d, h with
  | .instr .halt, hw => rw [show w = 0x0000#16 from hw]; rfl
  | .instr .ret, hw => rw [show w = 0x00EE#16 from hw]; rfl
  | .instr (.call nnn), ⟨hC, hnnn⟩ =>
    have field : nnn = fieldNNN w := BitVec.eq_of_toNat_eq (hnnn.trans (fieldNNN_toNat w).symm)
    rw [decode_of_call_pattern hC, field]
  | .instr (.add x y), ⟨hC, hD, hx, hy⟩ =>
    have fieldx : x = fieldX w := BitVec.eq_of_toNat_eq (hx.trans (fieldX_toNat w).symm)
    have fieldy : y = fieldY w := BitVec.eq_of_toNat_eq (hy.trans (fieldY_toNat w).symm)
    rw [decode_of_add_pattern hC hD, fieldx, fieldy]
  | .unsupported v, ⟨hv, h0, hEE, h2, h84⟩ =>
    rw [hv]
    have ne_halt : w.toNat ≠ 0x0000 := fun hw => h0 (BitVec.eq_of_toNat_eq hw)
    have ne_ret : w.toNat ≠ 0x00EE := fun hw => hEE (BitVec.eq_of_toNat_eq hw)
    exact decode_of_no_pattern ne_halt ne_ret h2 h84

theorem decode_eq_iff_readsAs (w : Word) (d : Decoded) : decode w = d ↔ ReadsAs w d :=
  ⟨fun h => h ▸ readsAs_decode w, decode_eq_of_readsAs⟩

/-- Settles O3: each clause is the row of one outcome. -/
theorem decodeFollowsOpcodeMap : Obligations.DecodeFollowsOpcodeMap := fun w =>
  ⟨decode_eq_iff_readsAs w (.instr .halt), decode_eq_iff_readsAs w (.instr .ret),
    fun nnn => decode_eq_iff_readsAs w (.instr (.call nnn)),
    fun x y => decode_eq_iff_readsAs w (.instr (.add x y)),
    fun v => decode_eq_iff_readsAs w (.unsupported v)⟩

end Sys2Proof.Machine
end

section
/-! The closed facts of the compositor: the default pixel (R120) and the index of a pixel as its row and column on the
screen (R125). -/

namespace Sys2Proof

/-- The raster form of R125: the pixel's screen row times the display width, plus its screen column. -/
theorem CompositorConfig.pixelIndex_eq_raster (c : CompositorConfig) (i j k l : Nat) :
    c.pixelIndex i j k l = (i * c.spriteHeight + j) * c.displayWidth + (k * c.spriteWidth + l) := by
  unfold pixelIndex displayWidth
  rw [Nat.add_mul, ← Nat.mul_assoc, ← Nat.mul_assoc, ← Nat.add_assoc]

namespace Machine

/-- Settles O43: each channel of the default pixel is the byte written in its definition. -/
theorem defaultPixelIsOpaqueCyan : Obligations.DefaultPixelIsOpaqueCyan := ⟨rfl, rfl, rfl, rfl⟩

/-- Settles O45: the first form is the definition of `idx`, the second its raster form. -/
theorem pixelIndexFormula : Obligations.PixelIndexFormula := fun c i j k l =>
  ⟨rfl, c.pixelIndex_eq_raster i j k l⟩

end Machine

end Sys2Proof
end

section
/-! Encode and decode are inverse (R73, R75): a word lies in the row of an instruction exactly when it is that
instruction's encoding. The assembler places these words. -/

namespace Sys2Proof.Machine

/-- The row of an instruction holds of one word, its encoding (R73, R74). -/
theorem readsAs_instr_iff (w : Word) (i : Instr) : ReadsAs w (.instr i) ↔ w = encode i := by
  cases i with
  | halt => exact Iff.rfl
  | ret => exact Iff.rfl
  | call nnn =>
    have hn := nnn.isLt
    rw [BitVec.toNat_eq, encode_call_toNat]
    simp only [ReadsAs]
    omega
  | add x y =>
    have hw := w.isLt
    have hx := x.isLt
    have hy := y.isLt
    rw [BitVec.toNat_eq, encode_add_toNat]
    simp only [ReadsAs]
    omega

/-- A word decodes to an instruction exactly when it is the instruction's encoding (R74, log 8). -/
theorem decode_eq_instr_iff (w : Word) (i : Instr) : decode w = .instr i ↔ w = encode i :=
  (decode_eq_iff_readsAs w _).trans (readsAs_instr_iff w i)

@[simp] theorem decode_encode (i : Instr) : decode (encode i) = .instr i := (decode_eq_instr_iff _ i).mpr rfl

theorem encode_injective : Function.Injective encode := fun i j h => by
  have same := decode_encode i
  rw [h, decode_encode] at same
  exact (Decoded.instr.inj same).symm

/-- A word that is unsupported is reported as it is (R75, R76). -/
theorem eq_of_decode_unsupported {w v : Word} (h : decode w = .unsupported v) : v = w := by
  have row := (decode_eq_iff_readsAs w _).mp h
  exact row.1

/-- Two bytes that make the encoding of an instruction decode to it, whatever follows (R70). -/
theorem decodeBytes_encodeBytes (i : Instr) (rest : List Byte) :
    decodeBytes (encodeBytes i ++ rest) = .instr i rest := by
  simp [encodeBytes, decodeBytes]

/-- Settles O5: the encoding of an instruction lies in the instruction's row, and its bytes make up that word. -/
theorem decodeOfEncode : Obligations.DecodeOfEncode := fun i _ => ⟨decode_encode i, decodeBytes_encodeBytes i⟩

/-- Settles O6: an instruction's row holds only of its encoding. -/
theorem encodeOfDecode : Obligations.EncodeOfDecode := fun w i h => ((decode_eq_instr_iff w i).mp h).symm

/-- Settles O1: each word is decoded by the tests of R75. -/
theorem writtenWordsDecode : Obligations.WrittenWordsDecode := by
  unfold Obligations.WrittenWordsDecode
  decide

/-- Settles O2: the fields are digits of the word in base 16 (R71). -/
theorem wordSplitsIntoFields : Obligations.WordSplitsIntoFields := fun w => by
  have hw := w.isLt
  simp only [fieldC_toNat, fieldX_toNat, fieldY_toNat, fieldD_toNat, fieldNNN_toNat]
  omega

/-! ### The opcode map (R74) -/

/-- Two rows whose patterns differ where both masks look match no word together. -/
theorem OpcodeRow.not_both_match {r q : OpcodeRow} (differ : r.pattern &&& q.mask ≠ q.pattern &&& r.mask) (w : Word) :
    ¬ (r.matchesWord w = true ∧ q.matchesWord w = true) := by
  simp only [OpcodeRow.matchesWord, beq_iff_eq]
  rintro ⟨hr, hq⟩
  refine differ ?_
  rw [← hr, ← hq, BitVec.and_assoc, BitVec.and_assoc, BitVec.and_comm r.mask]

/-- A word that matches a row agrees with it in the major opcode. -/
theorem OpcodeRow.fieldC_of_matches {r : OpcodeRow} {w : Word} (h : r.matchesWord w = true) :
    fieldC w &&& fieldC r.mask = fieldC r.pattern := by
  simp only [OpcodeRow.matchesWord, beq_iff_eq] at h
  rw [← h, fieldC, fieldC, fieldC, BitVec.extractLsb'_and]

/-- A word that matches a row agrees with it in the minor opcode. -/
theorem OpcodeRow.fieldD_of_matches {r : OpcodeRow} {w : Word} (h : r.matchesWord w = true) :
    fieldD w &&& fieldD r.mask = fieldD r.pattern := by
  simp only [OpcodeRow.matchesWord, beq_iff_eq] at h
  rw [← h, fieldD, fieldD, fieldD, BitVec.extractLsb'_and]

/-- A row whose mask looks at the whole word matches its pattern alone. -/
theorem OpcodeRow.eq_of_matches {r : OpcodeRow} {w : Word} (full : r.mask = BitVec.allOnes 16)
    (h : r.matchesWord w = true) : w = r.pattern := by
  rw [OpcodeRow.matchesWord, full, BitVec.and_allOnes] at h
  exact eq_of_beq h

theorem exists_instr_of_matches {r : OpcodeRow} {w : Word} (hr : r ∈ opcodeTable) (h : r.matchesWord w = true) :
    ∃ i, decode w = .instr i := by
  have hC := OpcodeRow.fieldC_of_matches h
  have hD := OpcodeRow.fieldD_of_matches h
  simp only [opcodeTable, List.mem_cons, List.not_mem_nil, or_false] at hr
  rcases hr with rfl | rfl | rfl | rfl
  · exact ⟨.halt, (decode_eq_instr_iff w _).mpr (OpcodeRow.eq_of_matches rfl h)⟩
  · exact ⟨.ret, (decode_eq_instr_iff w _).mpr (OpcodeRow.eq_of_matches rfl h)⟩
  · have major : fieldC w = 0x2#4 := BitVec.and_allOnes.symm.trans hC
    exact ⟨_, decode_of_call_pattern (by rw [← fieldC_toNat, major]; rfl)⟩
  · have major : fieldC w = 0x8#4 := BitVec.and_allOnes.symm.trans hC
    have minor : fieldD w = 0x4#4 := BitVec.and_allOnes.symm.trans hD
    exact ⟨_, decode_of_add_pattern (by rw [← fieldC_toNat, major]; rfl) (by rw [← fieldD_toNat, minor]; rfl)⟩

/-- The encoding of every instruction matches a row. -/
theorem exists_row_of_encode (i : Instr) : ∃ r ∈ opcodeTable, r.matchesWord (encode i) = true := by
  cases i with
  | halt => exact ⟨_, Laws.TableRow.halt.2.symm⟩
  | ret => exact ⟨_, Laws.TableRow.ret.2.symm⟩
  | call nnn => exact ⟨_, (Laws.TableRow.call nnn).2.symm⟩
  | add x y => exact ⟨_, (Laws.TableRow.add x y).2.symm⟩

/-- Settles O4: the rows' patterns differ pairwise under both masks, and the words of the rows are the encodings. -/
theorem opcodeRowsAreExact : Obligations.OpcodeRowsAreExact := by
  have differ : opcodeTable.Pairwise fun r q => r.pattern &&& q.mask ≠ q.pattern &&& r.mask := by decide
  refine ⟨differ.imp fun hrq => OpcodeRow.not_both_match hrq, fun w => ⟨?_, ?_⟩⟩
  · rintro ⟨i, hi⟩
    rw [(decode_eq_instr_iff w i).mp hi]
    exact exists_row_of_encode i
  · rintro ⟨r, hr, h⟩
    exact exists_instr_of_matches hr h

/-! ### The assembler (R84) -/

/-- A line that spells an instruction, with no label. -/
def lineOf (i : Instr) : AsmLine := { label := none, item := itemOf i }

theorem labelTable_lineOf (program : List Instr) (address : Nat) : labelTable address (program.map lineOf) = [] := by
  induction program generalizing address with
  | nil => rfl
  | cons i program ih => exact ih _

/-- Every operand that an instruction holds can be written in a line (R84, R85). -/
theorem itemOf_wellFormed (i : Instr) : (itemOf i).wellFormed = true := by
  cases i with
  | halt => rfl
  | ret => rfl
  | call nnn => exact decide_eq_true (Nat.le_of_lt_succ nnn.isLt)
  | add x y => exact Bool.and_eq_true_iff.mpr ⟨decide_eq_true x.isLt, decide_eq_true y.isLt⟩

theorem assembleItem_itemOf (labels : List (String × Nat)) (i : Instr) :
    assembleItem labels (itemOf i) = .inl (encode i) := by
  unfold assembleItem
  rw [if_pos (itemOf_wellFormed i)]
  cases i <;> simp [itemOf]

theorem assembleLines_lineOf (labels : List (String × Nat)) (program : List Instr) :
    assembleLines labels (program.map lineOf) = .bytes (program.flatMap encodeBytes) := by
  induction program with
  | nil => rfl
  | cons i program ih =>
    have item : assembleItem labels (lineOf i).item = .inl (encode i) := assembleItem_itemOf labels i
    simp only [List.map_cons, assembleLines, item, ih, List.flatMap_cons]
    rfl

/-- Settles O7: with no label, each line stands for its instruction's word. -/
theorem assemblerPlacesEncodings : Obligations.AssemblerPlacesEncodings := fun program => by
  change assemble (program.map lineOf) = _
  unfold assemble
  simp only [labelTable_lineOf, repeatedLabel, assembleLines_lineOf]

end Sys2Proof.Machine
end

section
/-! The meanings one condition at a time (40_control.md, 41_alu.md), and the statements about each instruction alone. -/

namespace Sys2Proof.Machine

/-! ### CALL and RET (R95, R96, R100, R101) -/

theorem exec_call_of_lt {nnn : Target} {s : State} (hsp : s.sp.val < Config.stackDepth) :
    exec (.call nnn) s = .next { s with
      pc := callTarget nnn, stack := s.stack.set s.sp.val s.pc hsp, sp := ⟨s.sp.val + 1, Nat.succ_lt_succ hsp⟩ } := by
  rcases execCall_cases nnn s with ⟨_, e⟩ | ⟨full, -⟩
  · exact e
  · exact absurd full (Nat.ne_of_lt hsp)

theorem exec_call_of_full {nnn : Target} {s : State} (hsp : s.sp.val = Config.stackDepth) :
    exec (.call nnn) s = .next (s.raiseIn (.call nnn) .stackOverflow) := by
  rcases execCall_cases nnn s with ⟨below, -⟩ | ⟨-, e⟩
  · exact absurd hsp (Nat.ne_of_lt below)
  · exact e

theorem exec_ret_of_succ {s : State} {k : Nat} (hk : k < Config.stackDepth) (hsp : s.sp.val = k + 1) :
    exec .ret s = .next { s with pc := s.stack[k], sp := ⟨k, Nat.lt_succ_of_lt hk⟩ } := by
  rcases execRet_cases s with ⟨j, hj, hsp', e⟩ | ⟨empty, -⟩
  · obtain rfl : j = k := Nat.succ.inj (hsp'.symm.trans hsp)
    exact e
  · exact absurd (empty.symm.trans hsp) (Nat.succ_ne_zero k).symm

theorem exec_ret_of_empty {s : State} (hsp : s.sp.val = 0) :
    exec .ret s = .next (s.raiseIn .ret .stackUnderflow) := by
  rcases execRet_cases s with ⟨k, -, above, -⟩ | ⟨-, e⟩
  · exact absurd (hsp.symm.trans above) (Nat.succ_ne_zero k).symm
  · exact e

/-- Settles O15: `HALT` writes the status alone. -/
theorem haltStopsWithSuccess : Obligations.HaltStopsWithSuccess := ⟨rfl, execHalt_eq⟩

/-- Settles O16: below the bound `CALL` pushes and jumps, at the bound it only raises its fault. -/
theorem callPushesAndJumpsOrOverflows : Obligations.CallPushesAndJumpsOrOverflows := by
  refine fun nnn s => ⟨encode_call_toNat nnn, fun hsp => ?_, fun hsp => ?_⟩
  · refine ⟨_, exec_call_of_lt hsp, Vector.getElem_set_self hsp, fun k hk hne => ?_, rfl, callTarget_toNat nnn,
      rfl, rfl, rfl, rfl⟩
    exact Vector.getElem_set_ne hsp hk hne.symm
  · have depth : s.sp = 16 := Fin.ext hsp
    rw [exec_call_of_full hsp, ← depth]
    rfl

/-- Settles O17: `RET` above an empty stack pops into `pc`. -/
theorem retPopsIntoPc : Obligations.RetPopsIntoPc :=
  ⟨rfl, fun _ _ hk hsp => ⟨_, exec_ret_of_succ hk hsp, rfl, rfl, rfl, rfl, rfl, rfl, rfl⟩⟩

/-- Settles O18: `RET` with an empty stack only raises its fault. -/
theorem retUnderflowsWhenEmpty : Obligations.RetUnderflowsWhenEmpty := fun s hsp => by
  have depth : s.sp = 0 := Fin.ext hsp
  rw [exec_ret_of_empty hsp, ← depth]
  rfl

/-! ### ADD (R110 to R114) -/

/-- The state that `ADD rX, rY` leaves. -/
abbrev State.added (s : State) (x y : RegIdx) : State :=
  (s.writeReg x (wrappedSum (s.readReg x) (s.readReg y))).setCarry (carryByte (s.readReg x) (s.readReg y))

theorem exec_add_eq (x y : RegIdx) (s : State) : exec (.add x y) s = .next (s.added x y) := rfl

/-- The carry is written last, so it is what register 15 holds (R112, D12). -/
theorem State.added_flag (s : State) (x y : RegIdx) :
    (s.added x y).readReg 15#4 = carryByte (s.readReg x) (s.readReg y) :=
  State.readReg_writeReg_same _ _ _

theorem State.added_destination (s : State) {x : RegIdx} (y : RegIdx) (hx : x ≠ 15#4) :
    (s.added x y).readReg x = wrappedSum (s.readReg x) (s.readReg y) :=
  (State.readReg_writeReg_ne _ _ hx).trans (State.readReg_writeReg_same _ _ _)

theorem State.added_other (s : State) {x r : RegIdx} (y : RegIdx) (hx : r ≠ x) (hflag : r ≠ 15#4) :
    (s.added x y).readReg r = s.readReg r :=
  (State.readReg_writeReg_ne _ _ hflag).trans (State.readReg_writeReg_ne _ _ hx)

theorem wrappedSum_eq_add (a b : RegVal) : wrappedSum a b = a + b := BitVec.eq_of_toNat_eq (wrappedSum_toNat a b)

theorem carryByte_eq_one_iff (a b : RegVal) : carryByte a b = 1#8 ↔ 255 < a.toNat + b.toNat := by
  rw [BitVec.toNat_eq, carryByte_toNat]
  split <;> simp_all

theorem carryByte_eq_zero_iff (a b : RegVal) : carryByte a b = 0#8 ↔ a.toNat + b.toNat ≤ 255 := by
  rw [BitVec.toNat_eq, carryByte_toNat]
  split <;> simp_all

/-- Settles O21: the destination takes the sum, register 15 the carry, and nothing else is written. -/
theorem addWritesSumAndCarry : Obligations.AddWritesSumAndCarry := by
  refine fun x y s => ⟨encode_add_toNat x y, _, exec_add_eq x y s, fun hx => ?_, ?_, fun r hx hflag => ?_,
    rfl, rfl, rfl, rfl, rfl, rfl⟩
  · rw [State.added_destination s y hx, wrappedSum_toNat]
  · rw [State.added_flag, carryByte_toNat]
  · exact State.added_other s y hx hflag

/-- Settles O22: the sum and the carry with the operands that coincide put in. -/
theorem addWithEqualOrFlagOperands : Obligations.AddWithEqualOrFlagOperands := by
  refine fun s t x => ⟨fun h => ?_, fun h hx => ?_, fun h => ?_⟩
  · cases (exec_add_eq x x s).symm.trans h
    rw [State.added_flag, carryByte_eq_one_iff, carryByte_eq_zero_iff]
    refine ⟨fun hx => ?_, by omega, by omega⟩
    rw [State.added_destination s x hx, wrappedSum_toNat, Nat.two_mul]
  · cases (exec_add_eq x 15#4 s).symm.trans h
    rw [State.added_destination s _ hx, wrappedSum_eq_add]
  · cases (exec_add_eq 15#4 x s).symm.trans h
    rw [State.added_flag]
    exact ⟨carryByte_eq_one_iff _ _, carryByte_eq_zero_iff _ _⟩

end Sys2Proof.Machine
end

section
/-! What a step can do, whole: `StepsTo` lists the ends of a step with the word fetched, and `step` answers exactly
these. Every statement about a step of the machine is a case analysis of it. -/

namespace Sys2Proof.Machine

theorem State.fetchable_iff (s : State) : s.Fetchable ↔ s.pc.toNat ≤ 0xFFFD := Nat.lt_succ_iff

/-- Below the fetch limit the advance of `pc` does not wrap (R26, R80). -/
theorem advance_toNat {a : Addr} (h : a.toNat < Config.fetchLimit) : (a + 2#16).toNat = a.toNat + 2 := by
  rw [BitVec.toNat_add]
  exact Nat.mod_eq_of_lt (Nat.add_lt_of_lt_sub h)

/-! ### The ends of a step -/

/-- The condition under which the word fetched faults (R76, R96, R101). -/
def State.FaultsWith (s : State) : FaultKind → Prop
  | .unsupportedOpcode => decode s.fetched = .unsupported s.fetched
  | .stackOverflow => (∃ nnn, s.fetched = encode (.call nnn)) ∧ s.sp.val = Config.stackDepth
  | .stackUnderflow => s.fetched = encode .ret ∧ s.sp.val = 0
  | .fetchOutOfRange => False

/-- The state after a fault of the word fetched (R152, D5): `pc` has advanced and the record tells the fetch. -/
abbrev State.faulted (s : State) (kind : FaultKind) : State := s.advancePc.raise kind (some s.fetched) s.pc

/-- The state in which the instruction fetched executes (R80). -/
abbrev State.executing (s : State) : State := (s.setStatus .running).advancePc

/-- The state after a `CALL` that finds a free slot (R95). -/
abbrev State.called (s : State) (nnn : Target) (hsp : s.sp.val < Config.stackDepth) : State :=
  { s.executing with
    pc := callTarget nnn, stack := s.stack.set s.sp.val (s.pc + 2#16) hsp,
    sp := ⟨s.sp.val + 1, Nat.succ_lt_succ hsp⟩ }

/-- The state after a `RET` that finds slot `k` the newest (R100). -/
abbrev State.returned (s : State) (k : Nat) (hk : k < Config.stackDepth) : State :=
  { s.executing with pc := s.stack[k], sp := ⟨k, Nat.lt_succ_of_lt hk⟩ }

/-- A step from `s` can leave `t` (R80, R185). -/
inductive StepsTo (s : State) : State → Prop
  | stopped (hs : s.status.isStopped = true) : StepsTo s s
  | outOfRange (ha : s.Active) (hf : ¬ s.Fetchable) : StepsTo s (s.raise .fetchOutOfRange none s.pc)
  | fault (ha : s.Active) (hf : s.Fetchable) (kind : FaultKind) (hk : s.FaultsWith kind) : StepsTo s (s.faulted kind)
  | halt (ha : s.Active) (hf : s.Fetchable) (hw : s.fetched = encode .halt) : StepsTo s s.executing.halt
  | add (ha : s.Active) (hf : s.Fetchable) (x y : RegIdx) (hw : s.fetched = encode (.add x y)) :
    StepsTo s (s.executing.added x y)
  | call (ha : s.Active) (hf : s.Fetchable) (nnn : Target) (hw : s.fetched = encode (.call nnn))
    (hsp : s.sp.val < Config.stackDepth) :
    StepsTo s (s.called nnn hsp)
  | ret (ha : s.Active) (hf : s.Fetchable) (hw : s.fetched = encode .ret) (k : Nat) (hk : k < Config.stackDepth)
    (hsp : s.sp.val = k + 1) :
    StepsTo s (s.returned k hk)

theorem ne_running_of_stopped {r : RunState} (h : r.isStopped = true) : r ≠ .running := by
  rintro rfl
  exact absurd h (by decide)

theorem ne_ready_of_stopped {r : RunState} (h : r.isStopped = true) : r ≠ .ready := by
  rintro rfl
  exact absurd h (by decide)

/-- A fault inside the instruction fetched records the word fetched and its address (R33, log 8). -/
theorem State.executing_raiseIn {s : State} {i : Instr} (hw : s.fetched = encode i) (kind : FaultKind) :
    s.executing.raiseIn i kind = s.faulted kind := by
  have address : s.executing.fetchedFrom = s.pc := BitVec.add_sub_cancel s.pc 2#16
  rw [State.raiseIn, address, ← hw]
  rfl

theorem stepsTo_of_step {s t : State} (h : step s = .next t) : StepsTo s t := by
  rcases step_cases s with ⟨hs, e⟩ | ⟨ha, hf, e⟩ | ⟨ha, hf, i, hd, e⟩ | ⟨ha, hf, w, hd, e⟩ <;> rw [h] at e
  · cases e
    exact .stopped hs
  · cases e
    exact .outOfRange ha hf
  · have hw : s.fetched = encode i := (decode_eq_instr_iff _ i).mp hd
    rcases exec_cases e.symm with
      ⟨rfl, rfl⟩ | ⟨x, y, rfl, rfl⟩ | ⟨nnn, rfl, ⟨hsp, rfl⟩ | ⟨hsp, rfl⟩⟩ | ⟨rfl, ⟨k, hk, hsp, rfl⟩ | ⟨hsp, rfl⟩⟩
    · exact .halt ha hf hw
    · exact .add ha hf x y hw
    · exact .call ha hf nnn hw hsp
    · rw [State.executing_raiseIn hw]
      exact .fault ha hf .stackOverflow ⟨⟨nnn, hw⟩, hsp⟩
    · exact .ret ha hf hw k hk hsp
    · rw [State.executing_raiseIn hw]
      exact .fault ha hf .stackUnderflow ⟨hw, hsp⟩
  · cases e
    cases eq_of_decode_unsupported hd
    exact .fault ha hf .unsupportedOpcode hd

/-- A step on the encoding of an instruction executes the instruction (R80). -/
theorem step_of_encode {s : State} {i : Instr} (ha : s.Active) (hf : s.Fetchable) (hw : s.fetched = encode i) :
    step s = exec i s.executing := by
  rw [step_of_active ha]
  exact State.cycle_of_instr (s := s.setStatus .running) hf ((decode_eq_instr_iff _ i).mpr hw)

/-- A step on a word that faults takes the fault (R152). -/
theorem step_of_faultsWith {s : State} {kind : FaultKind} (ha : s.Active) (hf : s.Fetchable) (hk : s.FaultsWith kind) :
    step s = .next (s.faulted kind) := by
  cases kind with
  | unsupportedOpcode =>
    rw [step_of_active ha, State.cycle_of_unsupported (s := s.setStatus .running) hf hk]
    rfl
  | stackOverflow =>
    obtain ⟨⟨nnn, hw⟩, hsp⟩ := hk
    rw [step_of_encode ha hf hw, ← State.executing_raiseIn hw]
    exact exec_call_of_full (s := s.executing) hsp
  | stackUnderflow =>
    obtain ⟨hw, hsp⟩ := hk
    rw [step_of_encode ha hf hw, ← State.executing_raiseIn hw]
    exact exec_ret_of_empty (s := s.executing) hsp
  | fetchOutOfRange => exact hk.elim

theorem step_of_stepsTo {s t : State} (h : StepsTo s t) : step s = .next t := by
  cases h with
  | stopped hs => exact step_of_stopped hs
  | outOfRange ha hf =>
    rw [step_of_active ha]
    exact State.cycle_of_not_fetchable (s := s.setStatus .running) hf
  | fault ha hf kind hk => exact step_of_faultsWith ha hf hk
  | halt ha hf hw => rw [step_of_encode ha hf hw]; rfl
  | add ha hf x y hw => rw [step_of_encode ha hf hw]; rfl
  | call ha hf nnn hw hsp => exact (step_of_encode ha hf hw).trans (exec_call_of_lt (s := s.executing) hsp)
  | ret ha hf hw k hk hsp => exact (step_of_encode ha hf hw).trans (exec_ret_of_succ (s := s.executing) hk hsp)

/-- What a step answers, whole. -/
theorem step_eq_next_iff {s t : State} : step s = .next t ↔ StepsTo s t := ⟨stepsTo_of_step, step_of_stepsTo⟩

end Sys2Proof.Machine
end

section
/-! The core's invariant is kept by every step: what `StepsTo` does to memory, to the live slots and to the run state,
and then each clause of the invariant. -/

namespace Sys2Proof.Machine

/-! ### Return addresses and advanced addresses -/

/-- `ILEN` below an advanced address is the address itself (R25). -/
theorem ofNat_advance_sub {a : Addr} (h : a.toNat < Config.fetchLimit) :
    BitVec.ofNat Config.awidth ((a + 2#16).toNat - Config.ilen) = a := by
  rw [advance_toNat h, Nat.add_sub_cancel, BitVec.ofNat_toNat, BitVec.setWidth_eq]

theorem fieldC_encode_call (nnn : Target) : fieldC (encode (.call nnn)) = 0x2#4 := by
  have := nnn.isLt
  refine BitVec.eq_of_toNat_eq ?_
  rw [fieldC_toNat, encode_call_toNat]
  change _ = 2
  omega

/-- The address after a `CALL` word that can be fetched is a return address (R95). -/
theorem Memory.returnAddress_of_call {m : Memory} {a : Addr} {nnn : Target} (hf : a.toNat < Config.fetchLimit)
    (hw : m.readWord a = encode (.call nnn)) : m.ReturnAddress (a + 2#16) where
  past := by
    rw [advance_toNat hf]
    exact Nat.le_add_left _ _
  fetchable := by
    rw [advance_toNat hf]
    exact hf
  call := by rw [ofNat_advance_sub hf, hw, fieldC_encode_call]

/-! ### What a step does to memory, to the live slots and to the run state -/

namespace StepsTo

variable {s t : State}

theorem mem_eq (h : StepsTo s t) : t.mem = s.mem := by cases h <;> rfl

theorem compositor_eq (h : StepsTo s t) : t.compositor = s.compositor := by cases h <;> rfl

/-- A live slot after a step was live before it, or holds the address after the `CALL` fetched. -/
theorem mem_liveStack {v : Slot} (h : StepsTo s t) (hv : v ∈ t.liveStack) :
    v ∈ s.liveStack ∨ (s.Fetchable ∧ v = s.pc + 2#16 ∧ ∃ nnn, s.fetched = encode (.call nnn)) := by
  cases h with
  | stopped hs => exact .inl hv
  | outOfRange ha hf => exact .inl hv
  | fault ha hf kind hk => exact .inl hv
  | halt ha hf hw => exact .inl hv
  | add ha hf x y hw => exact .inl hv
  | call ha hf nnn hw hsp =>
    have pushed : v ∈ s.liveStack ++ [s.pc + 2#16] := State.take_set_at_sp s (s.pc + 2#16) hsp ▸ hv
    rcases List.mem_append.mp pushed with old | new
    · exact .inl old
    · exact .inr ⟨hf, List.mem_singleton.mp new, nnn, hw⟩
  | ret ha hf hw k hk hsp =>
    rw [State.liveStack_of_succ s k hk hsp]
    exact .inl (List.mem_append_left _ hv)

/-- No step leads to `Ready` (R32). -/
theorem status_ne_ready (h : StepsTo s t) : t.status ≠ .ready := by
  cases h with
  | stopped hs => exact ne_ready_of_stopped hs
  | _ => exact nofun

end StepsTo

/-! ### The clauses of the invariant -/

theorem StepsTo.keeps_slots {s t : State} (h : StepsTo s t) (hs : s.LiveSlotsAreReturns) : t.LiveSlotsAreReturns := by
  intro v hv
  rw [h.mem_eq]
  rcases h.mem_liveStack hv with old | ⟨hf, rfl, nnn, hw⟩
  · exact hs v old
  · exact Memory.returnAddress_of_call hf hw

/-- The record of a word that faults agrees with the state it leaves (R33, R152). -/
theorem State.faulted_agrees {s : State} (hf : s.Fetchable) {kind : FaultKind} (hk : s.FaultsWith kind) :
    (s.faulted kind).StopExplained := by
  have records : FaultRecord.RecordsFetch ⟨kind, some s.fetched, s.pc, s.sp⟩ (s.faulted kind) :=
    ⟨hf, advance_toNat hf, rfl⟩
  refine ⟨rfl, ?_⟩
  cases kind with
  | unsupportedOpcode => exact ⟨records, hk⟩
  | stackOverflow =>
    obtain ⟨⟨nnn, hw⟩, hsp⟩ := hk
    exact ⟨records, hsp, (congrArg fieldC hw).trans (fieldC_encode_call nnn)⟩
  | stackUnderflow =>
    obtain ⟨hw, hsp⟩ := hk
    exact ⟨records, hsp, hw⟩
  | fetchOutOfRange => exact hk.elim

theorem StepsTo.keeps_stop {s t : State} (h : StepsTo s t) (hs : s.StopExplained) : t.StopExplained := by
  cases h with
  | stopped _ => exact hs
  | outOfRange ha hf => exact ⟨rfl, rfl, rfl, Nat.le_of_not_lt hf⟩
  | fault ha hf kind hk => exact State.faulted_agrees hf hk
  | halt ha hf hw =>
    refine ⟨(Nat.le_add_left _ _).trans_eq (advance_toNat hf).symm, ?_⟩
    exact (congrArg s.mem.readWord (ofNat_advance_sub hf)).trans hw
  | add ha hf x y hw => trivial
  | call ha hf nnn hw hsp => trivial
  | ret ha hf hw k hk hsp => trivial

theorem StepsTo.keeps_inv {s t : State} (h : StepsTo s t) (hi : s.Inv) : t.Inv where
  memory := h.mem_eq ▸ hi.memory
  slots := h.keeps_slots hi.slots
  entry := fun ready => absurd ready h.status_ne_ready
  stop := h.keeps_stop hi.stop

/-- Settles O27: memory stays, a new live slot is the address after the `CALL` fetched, and a step that stops leaves the
reason in `pc` and the record. -/
theorem stepKeepsInvariant : Obligations.StepKeepsInvariant := fun _ _ hi h => (stepsTo_of_step h).keeps_inv hi

/-! ### The constructed interpreter -/

/-- An empty call stack has no live slot. -/
theorem State.liveStack_of_empty {s : State} (hsp : s.sp.val = 0) : s.liveStack = [] := by
  rw [State.liveStack, hsp, List.take_zero]

/-- A `Ready` interpreter at the entry point with canonical memory meets the invariant. -/
theorem State.inv_of_ready {s : State} (hr : s.status = .ready) (hm : s.mem.wf) (hpc : s.pc = Config.resetPc)
    (hsp : s.sp.val = 0) : s.Inv where
  memory := hm
  slots := by
    intro v hv
    rw [State.liveStack_of_empty hsp] at hv
    exact absurd hv List.not_mem_nil
  entry := fun _ => ⟨hpc, hsp⟩
  stop := by
    rw [State.StopExplained, hr]
    trivial

theorem State.constructed_inv (c : Option Compositor) : (State.constructed c).Inv :=
  State.inv_of_ready rfl Memory.wf_nil rfl rfl

/-- Settles O28: reset is a construction of the interpreter. -/
theorem resetMeetsInvariant : Obligations.ResetMeetsInvariant := State.constructed_inv _

/-- Settles O36: the fields as construction sets them. -/
theorem resetLeavesEntryState : Obligations.ResetLeavesEntryState :=
  ⟨rfl, rfl, rfl, State.liveStack_of_empty rfl, _, rfl, rfl⟩

/-! ### Even addresses (R27) -/

theorem advance_even {a : Addr} (h : a.toNat % 2 = 0) : (a + 2#16).toNat % 2 = 0 := by
  have sum : (a + 2#16).toNat = (a.toNat + 2) % 65536 := BitVec.toNat_add a 2#16
  omega

theorem StepsTo.keeps_evenPc {s t : State} (h : StepsTo s t) (calls : s.mem.EvenCalls) (even : s.EvenPc) :
    t.EvenPc := by
  refine ⟨?_, fun v hv => ?_⟩
  · cases h with
    | stopped hs => exact even.pc
    | outOfRange ha hf => exact even.pc
    | fault ha hf kind hk => exact advance_even even.pc
    | halt ha hf hw => exact advance_even even.pc
    | add ha hf x y hw => exact advance_even even.pc
    | call ha hf nnn hw hsp =>
      change (callTarget nnn).toNat % 2 = 0
      rw [callTarget_toNat]
      exact calls s.pc nnn even.pc ((decode_eq_instr_iff _ _).mpr hw)
    | ret ha hf hw k hk hsp =>
      refine even.slots s.stack[k] ?_
      rw [State.liveStack_of_succ s k hk hsp]
      exact List.mem_append_right _ (List.mem_singleton_self _)
  · rcases h.mem_liveStack hv with old | ⟨-, rfl, -⟩
    · exact even.slots v old
    · exact advance_even even.pc

/-- Settles O30: `pc` advances by two, jumps to an even target or returns to an even slot. -/
theorem evenTargetsKeepPcEven : Obligations.EvenTargetsKeepPcEven := fun _ _ calls even h =>
  ⟨(stepsTo_of_step h).keeps_evenPc calls even, (stepsTo_of_step h).mem_eq ▸ calls⟩

end Sys2Proof.Machine
end

section
/-! The statements about one step: what it answers, what it faults on, what it reads and what it leaves alone. -/

namespace Sys2Proof.Machine

/-! ### What a step answers -/

/-- Two bytes decode to an instruction only where they make up its encoding (R70). -/
theorem wordOfBytes_of_decodeBytes {hi lo : Byte} {rest : List Byte} {i : Instr}
    (h : decodeBytes (hi :: lo :: rest) = .instr i rest) : wordOfBytes hi lo = encode i := by
  simp only [decodeBytes] at h
  cases hd : decode (wordOfBytes hi lo) with
  | instr j =>
    rw [hd] at h
    cases h
    exact (decode_eq_instr_iff _ i).mp hd
  | unsupported w =>
    rw [hd] at h
    cases h

/-- Settles O8: the bytes at `pc` are the encoding of the instruction, which the step then executes. -/
theorem stepRunsDecodedInstruction : Obligations.StepRunsDecodedInstruction := fun s _ ha hpc hd =>
  step_of_encode ha (s.fetchable_iff.mpr hpc) ((Memory.readWord_eq _ _).trans (wordOfBytes_of_decodeBytes hd))

/-- Settles O9: the fault of an unsupported word, which the record holds. -/
theorem unsupportedWordFaults : Obligations.UnsupportedWordFaults := fun s w ha hpc hd => by
  obtain rfl : w = s.fetched := eq_of_decode_unsupported hd
  exact step_of_stepsTo (.fault ha (s.fetchable_iff.mpr hpc) .unsupportedOpcode hd)

/-- Settles O10: at and above the fetch limit the step only raises its fault. -/
theorem fetchOutOfRangeFaults : Obligations.FetchOutOfRangeFaults := fun _ ha hpc =>
  step_of_stepsTo (.outOfRange ha (Nat.not_lt_of_le hpc))

theorem step_next (s : State) : ∃ t, step s = .next t := by
  rcases s.active_or_stopped with ha | hs
  · rw [step_of_active ha]
    exact State.cycle_next _
  · exact ⟨s, step_of_stopped hs⟩

/-- Settles O12: every cycle answers a next state, and a stopped state answers itself. -/
theorem everyStepAnswersNext : Obligations.EveryStepAnswersNext := step_next

theorem StepsTo.unique {s t u : State} (ht : StepsTo s t) (hu : StepsTo s u) : t = u :=
  Host.Outcome.next.inj ((step_of_stepsTo ht).symm.trans (step_of_stepsTo hu))

/-! ### Faults and stops (R150 to R152) -/

/-- A step that ends in `Failed` was a fetch fault or a fault of the word fetched. -/
theorem StepsTo.failed_cases {s t : State} {f : FaultRecord} (h : StepsTo s t) (ha : s.Active)
    (hfail : t.status = .failed f) :
    (¬ s.Fetchable ∧ t = s.raise .fetchOutOfRange none s.pc) ∨
    (s.Fetchable ∧ ∃ kind, s.FaultsWith kind ∧ t = s.faulted kind) := by
  cases h with
  | stopped hs => exact nomatch ha.not_stopped.symm.trans hs
  | outOfRange _ hf => exact .inl ⟨hf, rfl⟩
  | fault _ hf kind hk => exact .inr ⟨hf, kind, hk, rfl⟩
  | _ => exact nomatch hfail

theorem StepsTo.outOfRange_iff {s t : State} (h : StepsTo s t) (ha : s.Active) :
    (∃ f, t.status = .failed f ∧ f.kind = .fetchOutOfRange) ↔ ¬ s.Fetchable := by
  constructor
  · rintro ⟨f, hfail, hkind⟩
    rcases h.failed_cases ha hfail with ⟨hf, -⟩ | ⟨-, kind, hk, rfl⟩
    · exact hf
    · cases hfail
      cases hkind
      exact hk.elim
  · intro hf
    rw [h.unique (.outOfRange ha hf)]
    exact ⟨_, rfl, rfl⟩

theorem StepsTo.fault_iff {s t : State} (h : StepsTo s t) (ha : s.Active) {kind : FaultKind}
    (hkind : kind ≠ .fetchOutOfRange) :
    (∃ f, t.status = .failed f ∧ f.kind = kind) ↔ s.Fetchable ∧ s.FaultsWith kind := by
  constructor
  · rintro ⟨f, hfail, rfl⟩
    rcases h.failed_cases ha hfail with ⟨-, rfl⟩ | ⟨hf, kind, hk, rfl⟩
    · cases hfail
      exact absurd rfl hkind
    · cases hfail
      exact ⟨hf, hk⟩
  · rintro ⟨hf, hk⟩
    rw [h.unique (.fault ha hf kind hk)]
    exact ⟨_, rfl, rfl⟩

theorem StepsTo.halted_iff {s t : State} (h : StepsTo s t) (ha : s.Active) :
    t.status = .halted ↔ s.Fetchable ∧ s.fetched = encode .halt := by
  constructor
  · intro hhalt
    cases h with
    | stopped hs => exact nomatch ha.not_stopped.symm.trans hs
    | halt _ hf hw => exact ⟨hf, hw⟩
    | _ => cases hhalt
  · rintro ⟨hf, hw⟩
    rw [h.unique (.halt ha hf hw)]
    rfl

/-- The `CALL` words are those with major opcode 2 (R74). -/
theorem exists_eq_encode_call_iff (w : Word) : (∃ nnn, w = encode (.call nnn)) ↔ w.toNat / 0x1000 = 0x2 := by
  constructor
  · rintro ⟨nnn, rfl⟩
    exact ((readsAs_instr_iff _ (.call nnn)).mpr rfl).1
  · exact fun hC => ⟨_, (decode_eq_instr_iff w _).mp (decode_of_call_pattern hC)⟩

/-- Settles O13: a step ends in one way alone, so each end is met exactly under its own condition. -/
theorem stepOutcomeConditions : Obligations.StepOutcomeConditions := by
  intro s t ha e
  have h := stepsTo_of_step e
  rw [← s.fetchable_iff, ← exists_eq_encode_call_iff]
  exact ⟨(h.outOfRange_iff ha).trans Nat.not_lt, h.fault_iff ha nofun,
    h.fault_iff ha nofun, h.fault_iff ha nofun, h.halted_iff ha,
    h.status_ne_ready⟩

/-- Settles O14: a fetch fault only sets the run state, a fault of the word fetched also advances `pc`. -/
theorem faultEntryIsPrecise : Obligations.FaultEntryIsPrecise := by
  intro s t f ha e hfail
  rcases (stepsTo_of_step e).failed_cases ha hfail with ⟨hf, rfl⟩ | ⟨hf, kind, hk, rfl⟩ <;> cases hfail
  · exact ⟨rfl, rfl, rfl, rfl, rfl, rfl, rfl, fun _ => ⟨rfl, rfl⟩, fun other => absurd rfl other⟩
  · refine ⟨rfl, rfl, rfl, rfl, rfl, rfl, rfl, fun hkind => ?_, fun _ => ⟨rfl, advance_toNat hf⟩⟩
    cases hkind
    exact hk.elim

/-! ### What a step reads of memory (R52) -/

theorem State.cycle_withMem {m : Memory} {s : State} (same : s.Fetchable → m.readWord s.pc = s.fetched) :
    (s.withMem m).cycle = mapNext (.withMem m) s.cycle := by
  by_cases hf : s.Fetchable
  · rcases hd : decode s.fetched with i | w
    · rw [State.cycle_of_instr hf hd,
        State.cycle_of_instr (s := s.withMem m) hf ((congrArg decode (same hf)).trans hd)]
      exact exec_withMem m i s.advancePc
    · rw [State.cycle_of_unsupported hf hd,
        State.cycle_of_unsupported (s := s.withMem m) hf ((congrArg decode (same hf)).trans hd)]
      rfl
  · rw [State.cycle_of_not_fetchable hf, State.cycle_of_not_fetchable (s := s.withMem m) hf]
    rfl

/-- Memories with one word at `pc`, where one is fetched, are one memory to a step (R52, R55). -/
theorem step_withMem {m : Memory} {s : State} (same : s.Fetchable → m.readWord s.pc = s.fetched) :
    step (s.withMem m) = mapNext (.withMem m) (step s) := by
  rcases s.active_or_stopped with ha | hs
  · rw [step_of_active ha, step_of_active (s := s.withMem m) ha]
    exact State.cycle_withMem (s := s.setStatus .running) same
  · rw [step_of_stopped hs, step_of_stopped (s := s.withMem m) hs]
    rfl

/-- Settles O11: the word fetched is the pair at `pc`, and the step reads nothing else of memory. -/
theorem fetchIsBigEndianPair : Obligations.FetchIsBigEndianPair := by
  refine ⟨fun m addr _ => ⟨Memory.readWord_eq m addr, ?_⟩, fun s m _ hi lo => step_withMem fun _ => ?_,
    fun s m hpc => step_withMem fun hf => absurd hf (Nat.not_lt_of_le hpc)⟩
  · rw [Memory.readWord_eq, wordOfBytes_toNat]
  · rw [State.fetched, Memory.readWord_eq, Memory.readWord_eq, hi, lo]

/-! ### What a step leaves alone -/

theorem StepsTo.readReg_ne {s t : State} (h : StepsTo s t) {r : RegIdx} (hne : t.readReg r ≠ s.readReg r) :
    ∃ x y, s.fetched = encode (.add x y) ∧ (r = x ∨ r = 15#4) := by
  cases h with
  | add ha hf x y hw =>
    refine ⟨x, y, hw, ?_⟩
    by_contra other
    obtain ⟨hx, hflag⟩ := not_or.mp other
    exact hne (State.added_other s.executing y hx hflag)
  | _ => exact absurd rfl hne

theorem StepsTo.stack_ne {s t : State} (h : StepsTo s t) {k : Nat} (hk : k < 16) (hne : t.stack[k] ≠ s.stack[k]) :
    k = s.sp.val ∧ ∃ nnn, s.fetched = encode (.call nnn) := by
  cases h with
  | call ha hf nnn hw hsp =>
    refine ⟨?_, nnn, hw⟩
    by_contra other
    exact hne (Vector.getElem_set_ne hsp hk (Ne.symm other))
  | _ => exact absurd rfl hne

theorem StepsTo.sp_cases {s t : State} (h : StepsTo s t) :
    t.sp = s.sp ∨ (t.sp.val = s.sp.val + 1 ∧ ∃ nnn, s.fetched = encode (.call nnn)) ∨
      (t.sp.val + 1 = s.sp.val ∧ s.fetched = encode .ret) := by
  cases h with
  | call ha hf nnn hw hsp => exact .inr (.inl ⟨rfl, nnn, hw⟩)
  | ret ha hf hw k hk hsp => exact .inr (.inr ⟨hsp.symm, hw⟩)
  | _ => exact .inl rfl

/-- Settles O24: only `ADD` writes registers, only `CALL` a slot, only `CALL` and `RET` move `sp`. -/
theorem stepFrame : Obligations.StepFrame := by
  intro s t e
  have h := stepsTo_of_step e
  exact ⟨fun _ => h.readReg_ne, fun _ => h.stack_ne, h.sp_cases, h.mem_eq, fun a => congrArg (·.read a) h.mem_eq,
    h.compositor_eq⟩

/-! ### Dead slots (R31, D9, D13) -/

/-- The state with other call stack slots and everything else as it was. -/
abbrev State.withStack (stack : Vector Slot Config.stackDepth) (s : State) : State := { s with stack := stack }

theorem SameButDeadSlots.eq_withStack {s t : State} (h : SameButDeadSlots s t) : t = s.withStack t.stack := by
  obtain ⟨regs, pc, sp, -, status, mem, compositor⟩ := h
  cases t
  simp_all

theorem SameButDeadSlots.view_eq {s t : State} (h : SameButDeadSlots s t) : s.view = t.view := by
  simp only [State.view, h.regs, h.pc, h.sp, h.live, h.status]

/-- Slots that agree where they are live are one call stack to a step. -/
theorem StepsTo.withStack {s s' : State} {stack : Vector Slot Config.stackDepth} (h : StepsTo s s')
    (live : s.liveStack = (s.withStack stack).liveStack) :
    ∃ t', StepsTo (s.withStack stack) t' ∧ SameButDeadSlots s' t' := by
  cases h with
  | stopped hs => exact ⟨_, .stopped (s := s.withStack stack) hs, rfl, rfl, rfl, live, rfl, rfl, rfl⟩
  | outOfRange ha hf => exact ⟨_, .outOfRange (s := s.withStack stack) ha hf, rfl, rfl, rfl, live, rfl, rfl, rfl⟩
  | fault ha hf kind hk => exact ⟨_, .fault (s := s.withStack stack) ha hf kind hk, rfl, rfl, rfl, live, rfl, rfl, rfl⟩
  | halt ha hf hw => exact ⟨_, .halt (s := s.withStack stack) ha hf hw, rfl, rfl, rfl, live, rfl, rfl, rfl⟩
  | add ha hf x y hw => exact ⟨_, .add (s := s.withStack stack) ha hf x y hw, rfl, rfl, rfl, live, rfl, rfl, rfl⟩
  | call ha hf nnn hw hsp =>
    refine ⟨_, .call (s := s.withStack stack) ha hf nnn hw hsp, rfl, rfl, rfl, ?_, rfl, rfl, rfl⟩
    calc (s.stack.set s.sp.val (s.pc + 2#16) hsp).toList.take (s.sp.val + 1)
      _ = s.liveStack ++ [s.pc + 2#16] := State.take_set_at_sp s _ hsp
      _ = (s.withStack stack).liveStack ++ [s.pc + 2#16] := by rw [live]
      _ = (stack.set s.sp.val (s.pc + 2#16) hsp).toList.take (s.sp.val + 1) :=
        (State.take_set_at_sp (s.withStack stack) _ hsp).symm
  | ret ha hf hw k hk hsp =>
    rw [State.liveStack_of_succ s k hk hsp, State.liveStack_of_succ (s.withStack stack) k hk hsp] at live
    obtain ⟨below, newest⟩ := List.append_inj' live rfl
    exact ⟨_, .ret (s := s.withStack stack) ha hf hw k hk hsp, rfl, List.singleton_inj.mp newest, rfl,
      below, rfl, rfl, rfl⟩

/-- Settles O26: the view lists the live slots alone, and a step reads no other. -/
theorem deadSlotsAreUnobservable : Obligations.DeadSlotsAreUnobservable := by
  intro s t h
  refine ⟨h.view_eq, fun s' e => ?_⟩
  rw [h.eq_withStack]
  obtain ⟨t', step_t, same⟩ := (stepsTo_of_step e).withStack (stack := t.stack) (h.live.trans (by rw [h.eq_withStack]))
  exact ⟨t', step_of_stepsTo step_t, same⟩

/-! ### Sequences of calls and returns (40_control.md section 4) -/

/-- Settles O19: the `CALL` leaves the advanced `pc` in the newest slot, which the `RET` takes back. -/
theorem callThenRetRoundTrip : Obligations.CallThenRetRoundTrip := by
  intro s nnn hsp hrun hpc hcall hret
  have hf : s.Fetchable := s.fetchable_iff.mpr hpc
  have target : (callTarget nnn).toNat < Config.fetchLimit := by
    rw [callTarget_toNat]
    exact Nat.lt_trans nnn.isLt (by norm_num)
  have word : (s.called nnn hsp).fetched = encode .ret := hret
  have slot : (s.stack.set s.sp.val (s.pc + 2#16) hsp)[s.sp.val] = s.pc + 2#16 := Vector.getElem_set_self hsp
  have returned : StepsTo (s.called nnn hsp) ((s.called nnn hsp).returned s.sp.val hsp) :=
    .ret (.inr rfl) target word s.sp.val hsp rfl
  refine ⟨_, _, step_of_stepsTo (.call (.inr hrun) hf nnn hcall hsp), step_of_stepsTo returned, ?_, rfl, rfl, rfl, rfl⟩
  exact (congrArg BitVec.toNat slot).trans (advance_toNat hf)

/-- Settles O20: each of sixteen `CALL`s raises `sp` by one, and the next finds it at the bound. -/
theorem seventeenthCallOverflows : Obligations.SeventeenthCallOverflows := by
  intro trace hrun hsp calls
  have stepsTo : ∀ k, k ≤ 16 → StepsTo (trace k) (trace (k + 1)) := fun k hk => stepsTo_of_step (calls k hk).1
  have fetchable : ∀ k, k ≤ 16 → (trace k).Fetchable := fun k hk => (State.fetchable_iff _).mpr (calls k hk).2.1
  have word : ∀ k, k ≤ 16 → ∃ nnn, (trace k).fetched = encode (.call nnn) := fun k hk => (calls k hk).2.2
  have deep : ∀ k, k ≤ 16 → (trace k).sp.val = k ∧ (trace k).status = .running := by
    intro k hk
    induction k with
    | zero => exact ⟨hsp, hrun⟩
    | succ k ih =>
      have hk' : k ≤ 16 := Nat.le_of_succ_le hk
      obtain ⟨depth, running⟩ := ih hk'
      obtain ⟨nnn, hw⟩ := word k hk'
      have below : (trace k).sp.val < Config.stackDepth := depth.trans_lt hk
      rw [(stepsTo k hk').unique (.call (.inr running) (fetchable k hk') nnn hw below)]
      exact ⟨congrArg (· + 1) depth, rfl⟩
  obtain ⟨depth, running⟩ := deep 16 le_rfl
  refine ⟨deep, ?_⟩
  rw [(stepsTo 16 le_rfl).unique (.fault (.inr running) (fetchable 16 le_rfl) .stackOverflow ⟨word 16 le_rfl, depth⟩)]
  exact ⟨_, rfl, rfl, depth, depth⟩

end Sys2Proof.Machine
end

section
/-! The compositor (45_compositor.md): `idx` is the number with the place's digits, `flatten` puts each pixel at its
index, and `draw` writes the channels of that list, whatever the destination held. -/

namespace Sys2Proof

/-! ### The index mapper (R125, R126) -/

/-- A number below `a * b` has two digits, to the base `b` and below `a`. -/
theorem mul_add_lt_mul {a b q r : Nat} (hq : q < a) (hr : r < b) : q * b + r < a * b :=
  calc q * b + r
    _ < q * b + b := Nat.add_lt_add_left hr _
    _ = (q + 1) * b := (Nat.succ_mul q b).symm
    _ ≤ a * b := Nat.mul_le_mul_right b hq

theorem mul_add_div_of_lt {b r : Nat} (q : Nat) (hr : r < b) : (q * b + r) / b = q := by
  rw [Nat.mul_comm, Nat.mul_add_div (Nat.zero_lt_of_lt hr), Nat.div_eq_of_lt hr, Nat.add_zero]

theorem CompositorConfig.pixelCount_eq (c : CompositorConfig) :
    c.pixelCount = c.screenHeight * c.spriteHeight * c.displayWidth :=
  Nat.mul_assoc _ _ _

theorem CompositorConfig.byteCount_eq (c : CompositorConfig) : c.byteCount = 4 * c.pixelCount := rfl

section
variable {c : CompositorConfig} {i j k l : Nat}

theorem CompositorConfig.pixelIndex_lt (hi : i < c.screenHeight) (hj : j < c.spriteHeight) (hk : k < c.screenWidth)
    (hl : l < c.spriteWidth) : c.pixelIndex i j k l < c.pixelCount := by
  rw [c.pixelIndex_eq_raster, c.pixelCount_eq]
  exact mul_add_lt_mul (mul_add_lt_mul hi hj) (mul_add_lt_mul hk hl)

theorem CompositorConfig.placeOf_pixelIndex (hj : j < c.spriteHeight) (hk : k < c.screenWidth)
    (hl : l < c.spriteWidth) : c.placeOf (c.pixelIndex i j k l) = ⟨i, j, k, l⟩ := by
  have column : k * c.spriteWidth + l < c.displayWidth := mul_add_lt_mul hk hl
  rw [c.pixelIndex_eq_raster]
  simp only [placeOf, mul_add_div_of_lt _ column, mul_add_div_of_lt _ hj, mul_add_div_of_lt _ hl, Nat.mul_add_mod_of_lt,
    column, hj, hl]
end

theorem CompositorConfig.pixelIndex_placeOf (c : CompositorConfig) (p : Nat) :
    c.pixelIndex (c.placeOf p).tileRow (c.placeOf p).rowInTile (c.placeOf p).tileCol (c.placeOf p).colInTile = p := by
  rw [c.pixelIndex_eq_raster]
  simp only [placeOf, Nat.div_add_mod']

/-- Settles O46: dividing takes the digits of the index apart, and the digits make up the index again. -/
theorem pixelIndexIsBijection : Obligations.PixelIndexIsBijection := by
  rintro c ⟨hsw, hsh, -, -, hscw, -, -, -⟩
  refine ⟨fun i j k l hi hj hk hl =>
    ⟨CompositorConfig.pixelIndex_lt hi hj hk hl, CompositorConfig.placeOf_pixelIndex hj hk hl⟩, fun p hp => ?_⟩
  have width : 0 < c.displayWidth := Nat.mul_pos hscw hsw
  rw [c.pixelCount_eq] at hp
  have row : p / c.displayWidth < c.screenHeight * c.spriteHeight := Nat.div_lt_of_lt_mul (Nat.mul_comm _ _ ▸ hp)
  have column : p % c.displayWidth < c.screenWidth * c.spriteWidth := Nat.mod_lt p width
  exact ⟨Nat.div_lt_of_lt_mul (Nat.mul_comm _ _ ▸ row), Nat.mod_lt _ hsh,
    Nat.div_lt_of_lt_mul (Nat.mul_comm _ _ ▸ column), Nat.mod_lt _ hsw, c.pixelIndex_placeOf p⟩

namespace Machine

/-! ### The flattener (R127 to R130) -/

/-- The list of the four loops has a pixel for each place, and `idx` is the place's position in it: block by block, from
the pixels of a tile's row out to the tile rows of the screen. -/
theorem Compositor.flatten_getElem? (c : Compositor) :
    c.flatten.length = c.cfg.pixelCount ∧
    ∀ (i : Fin c.cfg.screenHeight) (j : Fin c.cfg.spriteHeight) (k : Fin c.cfg.screenWidth) (l : Fin c.cfg.spriteWidth),
      c.flatten[c.cfg.pixelIndex i j k l]? = some (c.pixel i j k l) := by
  have tileLine (i j k) : ((List.finRange c.cfg.spriteWidth).map (c.pixel i j k)).length = c.cfg.spriteWidth := by simp
  have screenLine (i j) := blocks_getElem? (tileLine i j)
  have tileBand (i) := blocks_getElem? fun j => (screenLine i j).1
  have screen := blocks_getElem? fun i => (tileBand i).1
  refine ⟨screen.1.trans (by rw [c.cfg.pixelCount_eq, CompositorConfig.displayWidth, Nat.mul_assoc]), fun i j k l => ?_⟩
  have inTile : k.val * c.cfg.spriteWidth + l.val < c.cfg.screenWidth * c.cfg.spriteWidth :=
    mul_add_lt_mul k.isLt l.isLt
  have digits : c.cfg.pixelIndex i j k l =
      i.val * (c.cfg.spriteHeight * (c.cfg.screenWidth * c.cfg.spriteWidth)) +
        (j.val * (c.cfg.screenWidth * c.cfg.spriteWidth) + (k.val * c.cfg.spriteWidth + l.val)) := by
    unfold CompositorConfig.pixelIndex
    ring
  calc c.flatten[c.cfg.pixelIndex i j k l]?
    _ = _ := digits ▸ screen.2 i i.isLt _ (mul_add_lt_mul j.isLt inTile)
    _ = _ := (tileBand i).2 j j.isLt _ inTile
    _ = _ := (screenLine i j).2 k k.isLt l l.isLt
    _ = some (c.pixel i j k l) := by simp

/-- The pixel of a place is `tiles[i][k][j][l]`, and these lookups succeed: the window lies inside the map (R184). -/
theorem Compositor.exists_lookup_pixel (c : Compositor) (i : Fin c.cfg.screenHeight) (j : Fin c.cfg.spriteHeight)
    (k : Fin c.cfg.screenWidth) (l : Fin c.cfg.spriteWidth) :
    ∃ tileRow sprite pixels, c.tiles[i.val]? = some tileRow ∧ tileRow[k.val]? = some sprite ∧
      sprite[j.val]? = some pixels ∧ pixels[l.val]? = some (c.pixel i j k l) := by
  obtain ⟨-, -, -, -, -, -, width, height⟩ := c.valid
  exact ⟨_, _, _, Vector.getElem?_eq_getElem (i.isLt.trans_le height),
    Vector.getElem?_eq_getElem (k.isLt.trans_le width), Vector.getElem?_eq_getElem j.isLt, Vector.getElem?_eq_getElem l.isLt⟩

/-- Settles O47: the pixel of every place stands at the place's index. -/
theorem flattenIsRasterOrder : Obligations.FlattenIsRasterOrder := by
  refine fun c => ⟨c.flatten_getElem?.1, fun i j k l hi hj hk hl => ?_⟩
  obtain ⟨tileRow, sprite, pixels, row, col, line, lookup⟩ := c.exists_lookup_pixel ⟨i, hi⟩ ⟨j, hj⟩ ⟨k, hk⟩ ⟨l, hl⟩
  exact ⟨tileRow, sprite, pixels, _, row, col, line, lookup, c.flatten_getElem?.2 ⟨i, hi⟩ ⟨j, hj⟩ ⟨k, hk⟩ ⟨l, hl⟩⟩

/-! ### The pixel-buffer writer (R133 to R136) -/

theorem Compositor.draw_of_length {c : Compositor} {dest : List Byte} (h : dest.length = 4 * c.cfg.pixelCount) :
    c.draw dest = .ok (copyPixels c.flatten dest) := if_pos h

theorem Compositor.draw_of_length_ne {c : Compositor} {dest : List Byte} (h : dest.length ≠ 4 * c.cfg.pixelCount) :
    c.draw dest = .failed (.bufferSizeMismatch (4 * c.cfg.pixelCount) dest.length) dest := if_neg h

theorem hostCall_draw_of_none {h : Session} (dest : List Byte) (hc : h.core.compositor = none) :
    hostCall (.draw dest) h = (.refused .noCompositor, h) := by
  simp only [hostCall, Session.draw, hc]

theorem hostCall_draw_of_some {h : Session} {c : Compositor} (dest : List Byte) (hc : h.core.compositor = some c) :
    hostCall (.draw dest) h = (.drawn (c.draw dest), h) := by
  simp only [hostCall, Session.draw, hc]

/-- Settles O48: the copy puts the channels of entry `n` of `flatten` at `4 * n`. -/
theorem drawCopiesEveryChannel : Obligations.DrawCopiesEveryChannel := by
  intro h c dest hc hlen
  refine ⟨copyPixels c.flatten dest, ?_, copyPixels_length _ _, fun i j k l hi hj hk hl => ?_⟩
  · rw [hostCall_draw_of_some dest hc, Compositor.draw_of_length hlen]
  · obtain ⟨count, entry⟩ := c.flatten_getElem?
    obtain ⟨tileRow, sprite, pixels, row, col, line, lookup⟩ := c.exists_lookup_pixel ⟨i, hi⟩ ⟨j, hj⟩ ⟨k, hk⟩ ⟨l, hl⟩
    exact ⟨tileRow, sprite, pixels, _, row, col, line, lookup,
      copyPixels_getElem? (hlen.trans (by rw [count])) (entry ⟨i, hi⟩ ⟨j, hj⟩ ⟨k, hk⟩ ⟨l, hl⟩)⟩

/-- Settles O49: without a compositor `draw` is refused, and a call of the wrong length leaves the session as it
was for the next. -/
theorem drawRejectsWrongLength : Obligations.DrawRejectsWrongLength := by
  refine fun h dest => ⟨hostCall_draw_of_none dest, fun c hc hlen => ?_⟩
  have rejected : hostCall (.draw dest) h =
      (.drawn (.failed (.bufferSizeMismatch (4 * c.cfg.pixelCount) dest.length) dest), h) := by
    rw [hostCall_draw_of_some dest hc, Compositor.draw_of_length_ne hlen]
  refine ⟨rejected, fun good hgood => ⟨copyPixels c.flatten good, ?_⟩⟩
  have drawn : hostCall (.draw good) h = (.drawn (.ok (copyPixels c.flatten good)), h) := by
    rw [hostCall_draw_of_some good hc, Compositor.draw_of_length hgood]
  rw [hostSession_cons_of_complete (by rw [rejected]; nofun), rejected,
    hostSession_cons_of_complete (by rw [drawn]; nofun), drawn]
  rfl

/-- A buffer of the right length holds the channels of the pixels and nothing of what it held (R135). -/
theorem copyPixels_eq_channels {pixels : List Pixel} {dest : List Byte} (hlen : dest.length = 4 * pixels.length) :
    copyPixels pixels dest = pixels.flatMap Pixel.channels := by
  fun_induction copyPixels pixels dest with
  | case1 p ps a b c d dest ih =>
    simp only [List.length_cons] at hlen
    rw [ih (by omega)]
    rfl
  | case2 pixels dest short =>
    cases pixels with
    | nil => exact List.length_eq_zero_iff.mp hlen
    | cons p ps =>
      match dest with
      | a :: b :: c :: d :: dest => exact (short _ _ _ _ _ _ _ rfl rfl).elim
      | [] | [_] | [_, _] | [_, _, _] => simp only [List.length_cons, List.length_nil] at hlen; omega

/-- Settles O50: what `draw` leaves is the channels of `flatten`. -/
theorem drawIgnoresOldDestination : Obligations.DrawIgnoresOldDestination := by
  intro c dest old hdest hold
  have count : 4 * c.flatten.length = 4 * c.cfg.pixelCount := by rw [c.flatten_getElem?.1]
  rw [Compositor.draw_of_length hdest, Compositor.draw_of_length hold, copyPixels_eq_channels (hdest.trans count.symm),
    copyPixels_eq_channels (hold.trans count.symm)]

/-! ### Construction (R120 to R123) -/

/-- Channel by channel, a drawn Pixel is the bytes drawn for it (R121). -/
theorem Pixel.drawn_ch (byte : Nat → Byte) (ch : Fin 4) : (Pixel.drawn byte).ch ch = byte ch.val := by
  match ch with
  | 0 | 1 | 2 | 3 => rfl

/-- Settles O44: every entry of a grid made by a function is the function's value at its place. -/
theorem constructionFillsEveryPixel : Obligations.ConstructionFillsEveryPixel := by
  refine ⟨fun cfg row col hr hc => ?_, fun cfg byte trow tcol row col ht htc hr hc ch => ?_⟩
  · rw [Sprite.cyan, Vector.getElem_ofFn, Vector.getElem_ofFn]
  · simp only [TileMap.drawn, Sprite.drawn, Vector.getElem_ofFn, Pixel.drawn_ch]

end Machine
end Sys2Proof
end

section
/-! Canonical memories are equal when they read alike (log 2), and the host writes every launch state: its memory cell
by cell from the highest address down, then its registers (R180, R183). -/

namespace Sys2Proof.Machine

/-! ### Canonical memories -/

/-- Below its first cell a canonical memory reads as the fill. -/
theorem Memory.read_eq_fill_of_lt {c : Host.Cell} {m : Memory} (hm : Memory.wf (c :: m)) {a : Nat} (ha : a ≤ c.1) :
    m.read a = Config.memFill :=
  Memory.read_eq_fill_of_not_mem fun _ hd => Nat.ne_of_gt (ha.trans_lt ((Memory.wf_cons.mp hm).1 _ hd))

theorem Memory.read_head (c : Host.Cell) (m : Memory) : Memory.read (c :: m) c.1 = c.2 := if_pos rfl

/-- Of two canonical memories that read alike, neither begins below the other. -/
theorem Memory.head_le_of_read_eq {c d : Host.Cell} {m n : Memory} (hm : Memory.wf (c :: m)) (hn : Memory.wf (d :: n))
    (alike : ∀ a, Memory.read (c :: m) a = Memory.read (d :: n) a) : d.1 ≤ c.1 := by
  by_contra below
  obtain ⟨-, ⟨-, listed⟩, -⟩ := Memory.wf_cons.mp hm
  refine listed ?_
  calc c.2
    _ = Memory.read (d :: n) c.1 := (Memory.read_head c m).symm.trans (alike c.1)
    _ = Memory.read n c.1 := if_neg fun e => below e.le
    _ = Config.memFill := Memory.read_eq_fill_of_lt hn (Nat.le_of_not_le below)

theorem Memory.cons_ne_nil_of_read {c : Host.Cell} {m : Memory} (hm : Memory.wf (c :: m)) :
    Memory.read (c :: m) c.1 ≠ Memory.read [] c.1 := by
  obtain ⟨-, ⟨-, listed⟩, -⟩ := Memory.wf_cons.mp hm
  rw [Memory.read_head]
  exact listed

theorem Memory.eq_of_read_eq {m n : Memory} (hm : m.wf) (hn : n.wf) (alike : ∀ a, m.read a = n.read a) : m = n := by
  induction m generalizing n with
  | nil =>
    cases n with
    | nil => rfl
    | cons d n => exact absurd (alike d.1).symm (Memory.cons_ne_nil_of_read hn)
  | cons c m ih =>
    cases n with
    | nil => exact absurd (alike c.1) (Memory.cons_ne_nil_of_read hm)
    | cons d n =>
      have address : c.1 = d.1 := Nat.le_antisymm
        (Memory.head_le_of_read_eq hn hm fun a => (alike a).symm) (Memory.head_le_of_read_eq hm hn alike)
      have byte : c.2 = d.2 := by
        rw [← Memory.read_head c m, alike, address, Memory.read_head]
      obtain rfl : c = d := Prod.ext address byte
      refine congrArg (c :: ·) (ih (Memory.wf_cons.mp hm).2.2 (Memory.wf_cons.mp hn).2.2 fun a => ?_)
      by_cases ha : c.1 = a
      · rw [Memory.read_eq_fill_of_lt hm ha.ge, Memory.read_eq_fill_of_lt hn ha.ge]
      · exact (if_neg ha).symm.trans ((alike a).trans (if_neg ha))

/-- Settles O31: the first cells agree, since a listed byte differs from the fill, and so on. -/
theorem canonicalMemoriesReadAlikeAreEqual : Obligations.CanonicalMemoriesReadAlikeAreEqual :=
  fun _ _ => Memory.eq_of_read_eq

/-! ### Sessions that set up a core -/

/-- The operations, from any session whose core is `s`, are all accepted and leave the core `t`. -/
def Prepares (ops : List HostOp) (s t : State) : Prop :=
  ∀ h : Session, h.core = s → (∀ reply ∈ (hostSession ops h).1, reply = .ok) ∧ (hostSession ops h).2.core = t

theorem Prepares.nil (s : State) : Prepares [] s s := fun _ hs => ⟨fun _ none => absurd none List.not_mem_nil, hs⟩

theorem Prepares.cons {op : HostOp} {ops : List HostOp} {s t u : State}
    (first : ∀ h : Session, h.core = s → hostCall op h = (.ok, .used t)) (rest : Prepares ops t u) :
    Prepares (op :: ops) s u := by
  intro h hs
  obtain ⟨replies, core⟩ := rest (.used t) rfl
  rw [hostSession_cons_of_complete (by rw [first h hs]; nofun), first h hs]
  exact ⟨fun reply mem => (List.mem_cons.mp mem).elim id (replies reply), core⟩

theorem hostCall_load_of_ready {h : Session} (hr : h.core.status = .ready) (addr : Addr) (byte : Byte) :
    hostCall (.load addr byte) h = (.ok, .used (h.core.memWrite addr byte)) := if_pos hr

theorem hostCall_setReg_of_ready {h : Session} (hr : h.core.status = .ready) (i : RegIdx) (v : RegVal) :
    hostCall (.setReg i v) h = (.ok, .used (h.core.writeReg i v)) := if_pos hr

theorem Prepares.load {addr : Addr} {byte : Byte} {ops : List HostOp} {s t : State} (hr : s.status = .ready)
    (rest : Prepares ops (s.memWrite addr byte) t) : Prepares (.load addr byte :: ops) s t :=
  rest.cons fun _ hs => hs ▸ hostCall_load_of_ready (hs ▸ hr) addr byte

theorem Prepares.setReg {i : RegIdx} {v : RegVal} {ops : List HostOp} {s t : State} (hr : s.status = .ready)
    (rest : Prepares ops (s.writeReg i v) t) : Prepares (.setReg i v :: ops) s t :=
  rest.cons fun _ hs => hs ▸ hostCall_setReg_of_ready (hs ▸ hr) i v

/-! ### Loading an image -/

/-- The `load` of a listed byte. -/
def loadCell (c : Host.Cell) : HostOp := .load (BitVec.ofNat Config.awidth c.1) c.2

/-- A byte written below every listed one is listed first. -/
theorem Memory.write_of_wf_cons {c : Host.Cell} {m : Memory} (hm : Memory.wf (c :: m)) : m.write c.1 c.2 = c :: m := by
  obtain ⟨below, ⟨-, listed⟩, -⟩ := Memory.wf_cons.mp hm
  have consed : ∀ n : Memory, Memory.consCell c.1 c.2 n = c :: n := fun n => if_neg listed
  cases m with
  | nil => exact consed []
  | cons d m =>
    have hlt : c.1 < d.1 := below d List.mem_cons_self
    obtain ⟨b, u⟩ := d
    rw [Memory.write, if_neg hlt.le.not_gt, if_neg hlt.ne', consed]

/-- Loading the cells of an image from the last to the first, into a core with no byte written. -/
theorem prepares_loads {image : Memory} (himage : image.wf) {s t : State} (hr : s.status = .ready) (hm : s.mem = [])
    {ops : List HostOp} (rest : Prepares ops { s with mem := image } t) :
    Prepares (image.reverse.map loadCell ++ ops) s t := by
  induction image generalizing ops with
  | nil =>
    have same : { s with mem := [] } = s := by rw [← hm]
    exact same ▸ rest
  | cons c image ih =>
    obtain ⟨-, ⟨inside, -⟩, tail⟩ := Memory.wf_cons.mp himage
    have address : (BitVec.ofNat Config.awidth c.1).toNat = c.1 := Nat.mod_eq_of_lt inside
    have written : State.memWrite { s with mem := image } (BitVec.ofNat Config.awidth c.1) c.2 =
        { s with mem := c :: image } := by
      rw [State.memWrite, address, Memory.write_of_wf_cons himage]
    rw [List.reverse_cons, List.map_append, List.append_assoc]
    exact ih tail (Prepares.load (s := { s with mem := image }) hr (written ▸ rest))

/-! ### Setting a register file -/

/-- The `set_reg` of one register of a file. -/
def setRegOf (regs0 : Vector RegVal 16) (i : Fin 16) : HostOp := .setReg (BitVec.ofFin i) regs0[i]

/-- A register file with the registers of a list taken from another. -/
def withRegs (regs0 : Vector RegVal 16) (is : List (Fin 16)) (regs : Vector RegVal 16) : Vector RegVal 16 :=
  is.foldl (fun (file : Vector RegVal 16) (i : Fin 16) => file.set i.val regs0[i]) regs

theorem withRegs_getElem (regs0 : Vector RegVal 16) (is : List (Fin 16)) (regs : Vector RegVal 16) (k : Fin 16) :
    (withRegs regs0 is regs)[k] = if k ∈ is then regs0[k] else regs[k] := by
  induction is generalizing regs with
  | nil => simp [withRegs]
  | cons i is ih =>
    refine (ih _).trans ?_
    by_cases hk : k = i
    · simp [hk]
    · have other : i.val ≠ k.val := fun e => hk (Fin.ext e.symm)
      simp [hk, Vector.getElem_set_ne, other]

/-- Setting every register leaves the file given. -/
theorem withRegs_finRange (regs0 regs : Vector RegVal 16) : withRegs regs0 (List.finRange 16) regs = regs0 := by
  refine Vector.ext fun k hk => ?_
  exact (withRegs_getElem regs0 _ regs ⟨k, hk⟩).trans (if_pos (List.mem_finRange _))

theorem prepares_setRegs (regs0 : Vector RegVal 16) (is : List (Fin 16)) {s : State} (hr : s.status = .ready) :
    Prepares (is.map (setRegOf regs0)) s { s with regs := withRegs regs0 is s.regs } := by
  induction is generalizing s with
  | nil => exact .nil s
  | cons i is ih => exact .setReg hr (ih (s := s.writeReg (BitVec.ofFin i) regs0[i]) hr)

/-- Settles O42: the image is loaded into the constructed core and every register set. -/
theorem hostReachesEveryLaunchState : Obligations.HostReachesEveryLaunchState := by
  intro regs0 image c himage
  refine ⟨image.reverse.map loadCell ++ (List.finRange 16).map (setRegOf regs0), fun op hop => ?_, ?_⟩
  · rcases List.mem_append.mp hop with load | setReg
    · obtain ⟨cell, -, rfl⟩ := List.mem_map.mp load
      exact .inl ⟨_, _, rfl⟩
    · obtain ⟨i, -, rfl⟩ := List.mem_map.mp setReg
      exact .inr ⟨_, _, rfl⟩
  · have registers := prepares_setRegs regs0 (List.finRange 16) (s := { State.constructed c with mem := image }) rfl
    rw [withRegs_finRange] at registers
    exact prepares_loads himage rfl rfl registers (.begin (State.constructed c)) rfl

end Sys2Proof.Machine
end

section
/-! The host interface (R185): `OpLeaves` lists what each operation can do to a session, and the statements about all
operations, about whole sessions and about `run()` are case analyses of it. -/

namespace Sys2Proof.Machine

/-! ### Runs (R81) -/

/-- What every step keeps, the turns of a run keep. -/
theorem State.loop_keeps_of_stepsTo {P : State → Prop} (keeps : ∀ s t, StepsTo s t → P s → P t) {turns : Nat}
    {s t : State} (hs : P s) (h : s.loop turns = .next t) : P t :=
  State.loop_keeps (fun s t hr hs hc => keeps s t (stepsTo_of_step ((step_of_running hr).trans hc)) hs) hs h

/-- From a state that a step acts in, the first turn of a run is the step. -/
theorem State.start_loop_succ {s t : State} (ha : s.Active) (h : step s = .next t) (turns : Nat) :
    s.start.loop (turns + 1) = t.loop turns := by
  rw [State.start_of_active ha]
  exact State.loop_succ (s := s.setStatus .running) rfl ((step_of_active ha).symm.trans h) turns

theorem State.loop_of_stopped {s : State} (h : s.status.isStopped = true) (turns : Nat) : s.loop turns = .next s :=
  State.loop_of_not_running (ne_running_of_stopped h) turns

theorem State.start_loop_of_stopped {s : State} (h : s.status.isStopped = true) (turns : Nat) :
    s.start.loop turns = .next s := by
  rw [State.start_of_stopped h, State.loop_of_stopped h]

/-- A run that has returned goes no further (R81). -/
theorem State.loop_of_le {s t : State} {enough turns : Nat} (h : s.loop enough = .next t)
    (ht : t.status.isStopped = true) (hle : enough ≤ turns) : s.loop turns = .next t := by
  obtain ⟨more, rfl⟩ := Nat.exists_eq_add_of_le hle
  rw [State.loop_add h, State.loop_of_stopped ht]

/-! ### What an operation leaves (R185) -/

/-- The host's operation, from the session `h`, can leave the session given. -/
inductive OpLeaves (h : Session) : HostOp → Session → Prop
  | same (op : HostOp) : OpLeaves h op h
  | newCompositor (cfg : CompositorConfig) (tiles0 : TileMap cfg) (lasts : h.startup = true)
    (absent : h.core.compositor = none) (c : Compositor) :
    OpLeaves h (.newCompositor cfg tiles0) { h with core := { h.core with compositor := some c } }
  | newInterpreter (cfg : CompositorConfig) :
    OpLeaves h (.newInterpreter cfg) { h with core := State.constructed h.core.compositor }
  | load (addr : Addr) (byte : Byte) (hr : h.core.status = .ready) :
    OpLeaves h (.load addr byte) (.used (h.core.memWrite addr byte))
  | setReg (i : RegIdx) (v : RegVal) (hr : h.core.status = .ready) :
    OpLeaves h (.setReg i v) (.used (h.core.writeReg i v))
  | run (turns : Nat) (t : State) (ht : h.core.start.loop turns = .next t) : OpLeaves h (.run turns) (.used t)
  | step (t : State) (ht : StepsTo h.core t) : OpLeaves h .step (.used t)

theorem hostCall_run_of_loop {h : Session} {turns : Nat} {t : State} (ht : h.core.start.loop turns = .next t) :
    hostCall (.run turns) h = (runReply t.status, .used t) := Session.run_of_loop ht

theorem hostCall_step_of_next {h : Session} {t : State} (ht : step h.core = .next t) :
    hostCall .step h = (.status t.status, .used t) := Session.step_of_next ht

theorem opLeaves_hostCall (op : HostOp) (h : Session) : OpLeaves h op (hostCall op h).2 := by
  cases op with
  | newCompositor cfg tiles0 =>
    rcases h.newCompositor_cases cfg tiles0 with ⟨why, e⟩ | ⟨lasts, absent, c, e⟩ <;> rw [hostCall, e]
    · exact .same _
    · exact .newCompositor cfg tiles0 lasts absent c
  | newInterpreter cfg =>
    rcases h.newInterpreter_cases cfg with e | e <;> rw [hostCall, e]
    · exact .same _
    · exact .newInterpreter cfg
  | load addr byte =>
    rcases h.load_cases addr byte with ⟨-, e⟩ | ⟨hr, e⟩ <;> rw [hostCall, e]
    · exact .same _
    · exact .load addr byte hr
  | setReg i v =>
    rcases h.setReg_cases i v with ⟨-, e⟩ | ⟨hr, e⟩ <;> rw [hostCall, e]
    · exact .same _
    · exact .setReg i v hr
  | run turns =>
    obtain ⟨t, ht⟩ := State.loop_next turns h.core.start
    rw [hostCall_run_of_loop ht]
    exact .run turns t ht
  | step =>
    obtain ⟨t, ht⟩ := step_next h.core
    rw [hostCall_step_of_next ht]
    exact .step t (stepsTo_of_step ht)
  | readState => exact .same _
  | draw dest =>
    rw [hostCall, h.draw_session]
    exact .same _

/-! ### The session's invariant -/

/-- Entering `Running` keeps the invariant (R81). -/
theorem State.start_inv {s : State} (hi : s.Inv) : s.start.Inv := by
  rcases s.active_or_stopped with ha | hs
  · rw [State.start_of_active ha]
    exact ⟨hi.memory, hi.slots, nofun, trivial⟩
  · rw [State.start_of_stopped hs]
    exact hi

theorem State.run_inv {s t : State} {turns : Nat} (hi : s.Inv) (ht : s.start.loop turns = .next t) : t.Inv :=
  State.loop_keeps_of_stepsTo (fun _ _ h => h.keeps_inv) (State.start_inv hi) ht

theorem OpLeaves.keeps_inv {op : HostOp} {h k : Session} (hk : OpLeaves h op k) (hi : h.Inv) : k.Inv := by
  obtain ⟨core, startup⟩ := hi
  cases hk with
  | same op => exact ⟨core, startup⟩
  | newCompositor cfg tiles0 lasts absent c => exact ⟨⟨core.memory, core.slots, core.entry, core.stop⟩, startup⟩
  | newInterpreter cfg => exact ⟨State.constructed_inv _, fun _ => rfl⟩
  | load addr byte hr =>
    obtain ⟨hpc, hsp⟩ := core.entry hr
    exact ⟨State.inv_of_ready hr (State.memWrite_wf core.memory addr byte) hpc hsp, nofun⟩
  | setReg i v hr => exact ⟨⟨core.memory, core.slots, core.entry, core.stop⟩, nofun⟩
  | run turns t ht => exact ⟨State.run_inv core ht, nofun⟩
  | step t ht => exact ⟨ht.keeps_inv core, nofun⟩

/-- Settles O29: construction gives a `Ready` interpreter at the entry point, and `load` meets it only there. -/
theorem hostOperationsKeepInvariant : Obligations.HostOperationsKeepInvariant :=
  ⟨fun c => ⟨State.constructed_inv c, fun _ => rfl⟩, fun op h hi => (opLeaves_hostCall op h).keeps_inv hi⟩

/-! ### What no operation changes, or few -/

/-- Settles O40: the interpreter writes no memory, so only `load` and the reset do. -/
theorem onlyLoadChangesMemory : Obligations.OnlyLoadChangesMemory := by
  intro op h a changed
  generalize (hostCall op h).2 = k, opLeaves_hostCall op h = leaves at changed
  cases leaves with
  | same op => exact absurd rfl changed
  | newCompositor cfg tiles0 lasts absent c => exact absurd rfl changed
  | newInterpreter cfg => exact .inr ⟨cfg, rfl⟩
  | load addr byte hr =>
    refine .inl ⟨addr, byte, rfl, hr, ?_⟩
    by_contra other
    exact changed (Memory.read_write_ne _ _ other)
  | setReg i v hr => exact absurd rfl changed
  | run turns t ht =>
    have kept : t.mem = h.core.start.mem :=
      State.loop_keeps_of_stepsTo (P := fun u => u.mem = h.core.start.mem) (fun _ _ h hm => h.mem_eq.trans hm) rfl ht
    exact absurd (by rw [Session.used_core, kept, State.start_mem]) changed
  | step t ht => exact absurd (by rw [Session.used_core, ht.mem_eq]) changed

/-- No operation takes a compositor away or replaces it (R38). -/
theorem OpLeaves.keeps_compositor {op : HostOp} {h k : Session} {c : Compositor} (hk : OpLeaves h op k)
    (hc : h.core.compositor = some c) : k.core.compositor = some c := by
  cases hk with
  | newCompositor cfg tiles0 lasts absent _ => exact nomatch absent.symm.trans hc
  | run turns t ht =>
    refine State.loop_keeps_of_stepsTo (fun _ _ h hm => h.compositor_eq.trans hm) ?_ ht
    rw [State.start_compositor, hc]
  | step t ht => exact ht.compositor_eq.trans hc
  | _ => exact hc

/-- Settles O51: every operation of the session keeps the compositor that exists. -/
theorem tileMapNeverChanges : Obligations.TileMapNeverChanges := fun ops _ _ hc =>
  hostSession_keeps (fun op h hc => (opLeaves_hostCall op h).keeps_compositor hc) ops hc

/-- Nothing begins startup again (log 12). -/
theorem OpLeaves.keeps_startup_ended {op : HostOp} {h k : Session} (hk : OpLeaves h op k) (ended : h.startup = false) :
    k.startup = false := by
  cases hk with
  | same op => exact ended
  | newCompositor cfg tiles0 lasts absent c => exact ended
  | newInterpreter cfg => exact ended
  | _ => rfl

theorem newCompositor_refused_of_ended {h : Session} (ended : h.startup = false) (cfg : CompositorConfig)
    (tiles0 : TileMap cfg) : ∃ why, hostCall (.newCompositor cfg tiles0) h = (.refused why, h) := by
  rcases h.newCompositor_cases cfg tiles0 with refused | ⟨lasts, -⟩
  · exact refused
  · exact nomatch ended.symm.trans lasts

/-- Settles O52: the four operations end startup, and after it `new_compositor` is refused. -/
theorem startupEndsForGood : Obligations.StartupEndsForGood := by
  intro op ops h carriedOut cfg tiles0
  refine newCompositor_refused_of_ended ?_ cfg tiles0
  refine hostSession_keeps (P := fun k => k.startup = false)
    (fun op k ended => (opLeaves_hostCall op k).keeps_startup_ended ended) ops ?_
  rcases carriedOut with ⟨addr, byte, rfl, hr⟩ | ⟨i, v, rfl, hr⟩ | ⟨turns, rfl⟩ | rfl
  · rw [hostCall_load_of_ready hr, Session.used_startup]
  · rw [hostCall_setReg_of_ready hr, Session.used_startup]
  · obtain ⟨t, ht⟩ := State.loop_next turns h.core.start
    rw [hostCall_run_of_loop ht, Session.used_startup]
  · obtain ⟨t, ht⟩ := step_next h.core
    rw [hostCall_step_of_next ht, Session.used_startup]

/-! ### Stopped states and the end of a run (R81, R165) -/

theorem hostCall_run_of_stopped {h : Session} {turns : Nat} {t : State} (ht : h.core.start.loop turns = .next t)
    (hs : t.status.isStopped = true) : hostCall (.run turns) h = (.status t.status, .used t) := by
  rw [hostCall_run_of_loop ht, runReply_of_stopped hs]

theorem OpLeaves.core_of_stopped {op : HostOp} {h k : Session} (hk : OpLeaves h op k)
    (hs : h.core.status.isStopped = true) (other : ∀ cfg, op ≠ .newInterpreter cfg) :
    k.core = { h.core with compositor := k.core.compositor } := by
  cases hk with
  | same op => rfl
  | newCompositor cfg tiles0 lasts absent c => rfl
  | newInterpreter cfg => exact absurd rfl (other cfg)
  | load addr byte hr => exact absurd hr (ne_ready_of_stopped hs)
  | setReg i v hr => exact absurd hr (ne_ready_of_stopped hs)
  | run turns t ht => cases (State.start_loop_of_stopped hs turns).symm.trans ht; rfl
  | step t ht => cases ht.unique (.stopped hs); rfl

/-- Settles O32: a step and a run stay where they are, and no other operation but the reset is allowed to write. -/
theorem stoppedStatesAreTerminal : Obligations.StoppedStatesAreTerminal := by
  refine fun h hs => ⟨step_of_stopped hs, fun turns => ?_, fun op => (opLeaves_hostCall op h).core_of_stopped hs⟩
  rw [hostCall_run_of_stopped (State.start_loop_of_stopped hs turns) hs]
  exact ⟨rfl, rfl⟩

theorem halted_or_failed_of_stopped {r : RunState} (h : r.isStopped = true) : r = .halted ∨ ∃ f, r = .failed f := by
  cases r with
  | ready => exact nomatch h
  | running => exact nomatch h
  | halted => exact .inl rfl
  | failed f => exact .inr ⟨f, rfl⟩

/-- Settles O34: from the turn in which a run returns, more turns change nothing. -/
theorem runReportsItsEnd : Obligations.RunReportsItsEnd := by
  rintro h t ⟨enough, returned, hs⟩
  exact ⟨halted_or_failed_of_stopped hs, enough, fun turns hle =>
    hostCall_run_of_stopped (State.loop_of_le returned hs hle) hs⟩

/-- Settles O33: the word of two zero bytes is `HALT`. -/
theorem zeroMemoryHaltsAtOnce : Obligations.ZeroMemoryHaltsAtOnce := by
  intro h turns ha hpc zero
  have hw : h.core.fetched = encode .halt := by
    rw [State.fetched, Memory.readWord_eq, zero, zero]
    rfl
  have halts : step h.core = .next h.core.executing.halt :=
    step_of_stepsTo (.halt ha (h.core.fetchable_iff.mpr hpc) hw)
  have returned : h.core.start.loop (turns + 1) = .next h.core.executing.halt :=
    (State.start_loop_succ ha halts turns).trans (State.loop_of_stopped rfl turns)
  exact hostCall_run_of_stopped returned rfl

/-- Settles O53: a run still `Running` ends the session, and one that has returned is an operation like any other. -/
theorem nothingBeginsDuringRun : Obligations.NothingBeginsDuringRun := by
  refine fun turns ops h => ⟨?_, fun t ht hs => ?_⟩
  · rintro ⟨t, ht, running⟩
    have pending : (hostCall (.run turns) h).1 = .notReturned := by
      rw [hostCall_run_of_loop ht]
      exact (runReply_eq_notReturned_iff _).mpr running
    rw [hostSession, if_pos pending]
    exact ⟨rfl, rfl⟩
  · have returned := hostCall_run_of_stopped ht hs
    rw [hostSession_cons_of_complete (by rw [returned]; nofun), returned]
    rfl

/-! ### Each operation alone (R185) -/

/-- Settles O37: with a valid configuration the interpreter is constructed anew beside its compositor. -/
theorem newInterpreterResets : Obligations.NewInterpreterResets := by
  refine fun cfg h => ⟨fun valid => ?_, fun invalid => ?_⟩
  · have accepted : hostCall (.newInterpreter cfg) h = (.ok, { h with core := State.constructed h.core.compositor }) :=
      if_pos ((configuration_wellFormed_iff cfg).mpr valid)
    exact ⟨_, accepted, rfl, rfl, rfl, rfl⟩
  · exact if_neg (mt (configuration_wellFormed_iff cfg).mp invalid)

/-- Settles O38: the reasons of a refusal in the order in which they are tried, and the construction when none holds. -/
theorem newCompositorOnce : Obligations.NewCompositorOnce := by
  refine fun cfg tiles0 h => ⟨fun valid absent lasts => ?_, fun valid absent ended => ?_, fun valid existing => ?_,
    fun invalid => ?_⟩
  · simp only [hostCall, Session.newCompositor, dif_pos valid, absent, lasts]
  · simp only [hostCall, Session.newCompositor, dif_pos valid, absent, ended]
  · obtain ⟨c, hc⟩ := Option.ne_none_iff_exists'.mp existing
    simp only [hostCall, Session.newCompositor, dif_pos valid, hc]
  · exact dif_neg invalid

/-- Settles O39: in `Ready` each writes its one place, in any other run state both are refused. -/
theorem loadAndSetRegOnlyWhenReady : Obligations.LoadAndSetRegOnlyWhenReady := by
  refine fun h addr byte i v hm => ⟨fun hr => ⟨?_, ?_⟩, fun hr => ⟨if_neg hr, if_neg hr⟩⟩
  · exact ⟨_, hostCall_load_of_ready hr addr byte, State.memWrite_wf hm addr byte, Memory.read_write_same hm _ _,
      fun a ha => Memory.read_write_ne _ _ ha, rfl⟩
  · exact ⟨_, hostCall_setReg_of_ready hr i v, State.readReg_writeReg_same _ i v,
      fun r hne => State.readReg_writeReg_ne _ v hne, rfl⟩

theorem State.liveStack_length (s : State) : s.liveStack.length = s.sp.val := by
  rw [State.liveStack, List.length_take, Vector.length_toList]
  exact Nat.min_eq_left (Nat.le_of_lt_succ s.sp.isLt)

theorem State.liveStack_getElem? (s : State) {k : Nat} (hk : k < 16) (live : k < s.sp.val) :
    s.liveStack[k]? = some s.stack[k] := by
  rw [State.liveStack, List.getElem?_take_of_lt live, Vector.getElem?_toList, Vector.getElem?_eq_getElem]

/-- Settles O41: the view copies the fields and the first `sp` slots. -/
theorem readStateShowsLiveSlots : Obligations.ReadStateShowsLiveSlots := fun h =>
  ⟨_, rfl, rfl, rfl, rfl, rfl, h.core.liveStack_length, fun _ hk live => h.core.liveStack_getElem? hk live⟩

end Sys2Proof.Machine
end

section
/-! Every run returns: the addresses at which the calls outstanding go on, oldest first, and `pc` last, fall in a
lexicographic order in which a missing address lies below every one and a higher address below a lower one. With at most
17 addresses the order is that of the natural numbers `turnsLeft`. -/

namespace Sys2Proof.Machine

/-! ### The measure -/

/-- A list of addresses as a number with `room` digits to the base 0x10002: the lower the address the greater its digit,
and digit 0 where no address stands. -/
def turnsLeft : Nat → List Addr → Nat
  | 0, _ => 0
  | _ + 1, [] => 0
  | room + 1, a :: as => (0x10001 - a.toNat) * 0x10002 ^ room + turnsLeft room as

theorem turnsLeft_lt (room : Nat) (as : List Addr) : turnsLeft room as < 0x10002 ^ room := by
  induction room generalizing as with
  | zero => exact Nat.one_pos
  | succ room ih =>
    cases as with
    | nil => exact Nat.pow_pos (by decide)
    | cons a as =>
      calc (0x10001 - a.toNat) * 0x10002 ^ room + turnsLeft room as
        _ < 0x10002 * 0x10002 ^ room := mul_add_lt_mul (Nat.lt_succ_of_le (Nat.sub_le _ _)) (ih as)
        _ = 0x10002 ^ (room + 1) := (Nat.pow_succ').symm

/-- A higher first address outweighs whatever comes after it. -/
theorem turnsLeft_cons_lt {a b : Addr} (hab : a.toNat < b.toNat) (room : Nat) (as bs : List Addr) :
    turnsLeft (room + 1) (b :: bs) < turnsLeft (room + 1) (a :: as) := by
  have hb := addr_lt b
  calc (0x10001 - b.toNat) * 0x10002 ^ room + turnsLeft room bs
    _ < (0x10001 - a.toNat) * 0x10002 ^ room := mul_add_lt_mul (by omega) (turnsLeft_lt room bs)
    _ ≤ turnsLeft (room + 1) (a :: as) := Nat.le_add_right _ _

/-- A list that ends lies below one that goes on. -/
theorem turnsLeft_nil_lt (room : Nat) (a : Addr) : turnsLeft (room + 1) [] < turnsLeft (room + 1) [a] := by
  have ha := addr_lt a
  exact Nat.add_pos_left (Nat.mul_pos (by omega) (Nat.pow_pos (by decide))) _

/-- Lists that begin alike are ordered by what follows. -/
theorem turnsLeft_append_lt {room : Nat} {as bs : List Addr} (h : turnsLeft room bs < turnsLeft room as)
    (common : List Addr) :
    turnsLeft (room + common.length) (common ++ bs) < turnsLeft (room + common.length) (common ++ as) := by
  induction common with
  | nil => exact h
  | cons c common ih => exact Nat.add_lt_add_left ih _

/-! ### The measure of a state -/

/-- Where the calls outstanding go on, oldest first, and the current `pc` (R31). -/
def State.resumes (s : State) : List Addr := s.liveStack ++ [s.pc]

/-- A bound on the turns of a run from here: the call stack holds 16 addresses, and `pc` is one more. -/
def State.turnsLeft (s : State) : Nat := Machine.turnsLeft (Config.stackDepth + 1) s.resumes

/-- Addresses that fall in the order after the call stack's, which leaves room for one. -/
theorem State.turnsLeft_lt_of_resumes {s t : State} {as bs : List Addr} (hs : s.resumes = s.liveStack ++ as)
    (ht : t.resumes = s.liveStack ++ bs)
    (h : ∀ room, Machine.turnsLeft (room + 1) bs < Machine.turnsLeft (room + 1) as) : t.turnsLeft < s.turnsLeft := by
  have room : Config.stackDepth + 1 = Config.stackDepth - s.sp.val + 1 + s.liveStack.length := by
    have := s.sp.isLt
    rw [s.liveStack_length]
    omega
  rw [State.turnsLeft, State.turnsLeft, hs, ht, room]
  exact turnsLeft_append_lt (h _) s.liveStack

/-- A step after which the run goes on has fewer turns left: `ADD` raises the last address, `CALL` raises it and adds
one, `RET` drops it. -/
theorem StepsTo.turnsLeft_lt {s t : State} (h : StepsTo s t) (hr : t.status = .running) :
    t.turnsLeft < s.turnsLeft := by
  have advances (hf : s.Fetchable) : s.pc.toNat < (s.pc + 2#16).toNat := by
    rw [advance_toNat hf]
    exact Nat.lt_add_of_pos_right Nat.two_pos
  cases h with
  | stopped hs => exact absurd hr (ne_running_of_stopped hs)
  | add _ hf x y hw =>
    exact State.turnsLeft_lt_of_resumes rfl rfl fun room => turnsLeft_cons_lt (advances hf) room [] []
  | call _ hf nnn hw hsp =>
    refine State.turnsLeft_lt_of_resumes (bs := [s.pc + 2#16, callTarget nnn]) rfl ?_ fun room =>
      turnsLeft_cons_lt (advances hf) room [] _
    calc (s.called nnn hsp).liveStack ++ [callTarget nnn]
      _ = s.liveStack ++ [s.pc + 2#16] ++ [callTarget nnn] := by
        rw [← State.take_set_at_sp s (s.pc + 2#16) hsp]
        rfl
      _ = s.liveStack ++ [s.pc + 2#16, callTarget nnn] := List.append_assoc _ _ _
  | ret _ hf hw k hk hsp =>
    refine State.turnsLeft_lt_of_resumes (bs := []) rfl ?_ fun room => turnsLeft_nil_lt room s.pc
    rw [List.append_nil]
    exact (State.liveStack_of_succ s k hk hsp).symm
  | _ => exact nomatch hr

/-! ### Every run returns -/

theorem State.loop_returns {s : State} (hr : s.status = .running) :
    ∃ turns t, s.loop turns = .next t ∧ t.status.isStopped = true := by
  induction left : s.turnsLeft using Nat.strong_induction_on generalizing s with
  | h n ih =>
    obtain ⟨u, hu⟩ := s.cycle_next
    have h : StepsTo s u := stepsTo_of_step ((step_of_running hr).trans hu)
    rcases u.active_or_stopped with (ready | running) | hs
    · exact absurd ready h.status_ne_ready
    · obtain ⟨turns, t, ht, hs⟩ := ih u.turnsLeft (left ▸ h.turnsLeft_lt running) running rfl
      exact ⟨turns + 1, t, (State.loop_succ hr hu turns).trans ht, hs⟩
    · exact ⟨1, u, (State.loop_succ hr hu 0).trans (State.loop_of_stopped hs 0), hs⟩

theorem State.exists_runReturns (s : State) : ∃ t, s.RunReturns t := by
  rcases s.active_or_stopped with ha | hs
  · obtain ⟨turns, t, ht, hs⟩ := State.loop_returns (s := s.setStatus .running) rfl
    exact ⟨t, turns, (State.start_of_active ha) ▸ ht, hs⟩
  · exact ⟨s, 0, State.start_loop_of_stopped hs 0, hs⟩

/-- Settles O35: `turnsLeft` falls with every turn that leaves the run going. -/
theorem everyRunReturns : Obligations.EveryRunReturns := by
  refine fun s => ⟨s.exists_runReturns, fun forever => ?_⟩
  obtain ⟨t, turns, ht, hs⟩ := s.exists_runReturns
  obtain ⟨u, hu, running⟩ := forever turns
  cases hu.symm.trans ht
  exact ne_running_of_stopped hs running

end Sys2Proof.Machine
end
